-- ==== Sys2Proof/Word.lean ====
section
/-! DEFINITION. The two scalar types of the block: the byte of the stream and the time stamp. -/
namespace Sys2Proof

/-- A byte, "an integer 0..255", bit 0 least significant (spec/00_scope.md R11). -/
abbrev Byte := BitVec 8

/-- `TIME` is the natural numbers with their usual order (spec/00_scope.md R8). -/
abbrev Time := Nat

end Sys2Proof
end

