-- ==== Sys2Proof/Config.lean ====
section
/-! DEFINITION. What is fixed for one built instance: the label sets of the three look-up tables, the tables' types, the
port widths, and the OPEN parameters of spec/00_scope.md R6 and R7 as constants without a body. -/
namespace Sys2Proof

/-- The 14 mode labels, in the document's order (spec/30_encoding.md R62). -/
inductive Mode where
  | vac | vdc | resistance | capacitance | temperature
  | ampsDC | mAmpsDC | uAmpsDC | ampsAC | mAmpsAC | uAmpsAC
  | diodeTest | frequency | continuity
deriving DecidableEq, Repr

/-- What MODE answers: one of the 14 labels, or "Unknown" for a code that is not in the table (R62). -/
inductive ModeLabel where
  | unknown
  | known (m : Mode)
deriving DecidableEq, Repr

/-- The 10 unit labels, in the document's order (spec/30_encoding.md R65). -/
inductive UnitLabel where
  | volt | amp | ohms | hertz | farad | ohmsContinuity | voltDiodeTest | degC | degF | percent
deriving DecidableEq, Repr

/-- The six SI prefix strings, in the document's order (spec/30_encoding.md R66). -/
inductive SiPrefix where
  | empty | kilo | mega | nano | micro | milli
deriving DecidableEq, Repr

/-- An entry of `MULT_TABLE`: "(scale factor, SI prefix string)". The scale factor is in the table and is never applied
and never output (spec/30_encoding.md R66, spec/42_decode.md R130). -/
structure Multiplier where
  scale    : Rat
  siPrefix : SiPrefix
deriving DecidableEq, Repr

/-- A table space: "a read-only array of 256 optional entries indexed by one payload byte" (spec/20_memory.md R44). -/
abbrev CodeTable (α : Type) := Vector (Option α) 256

/-- The three look-up tables of one instance (spec/00_scope.md R7). Their contents are configuration; the spec gives no code
(spec/91_not_in_source.md N2 to N4). -/
structure Tables where
  mode : CodeTable Mode
  unit : CodeTable UnitLabel
  mult : CodeTable Multiplier
deriving DecidableEq, Repr

/-- The widths of the operand ports (spec/00_scope.md R8, R9). -/
structure PortWidths where
  flagsW : Nat
  posW   : Nat
  tsW    : Nat
deriving DecidableEq, Repr

/-- The default widths: `FLAGS_W` = 8, `POS_W` = 8, `TS_W` = 64 (spec/00_scope.md R8, R9). -/
def Config.defaultWidths : PortWidths := { flagsW := 8, posW := 8, tsW := 64 }

/-- OPEN: the header of the built instance. DESIGN CHOICE (log entry 3): no value is fixed. -/
opaque Config.header : List Byte

/-- OPEN: how many body bytes the frame has beyond the one it must have, so that `FRAME_LENGTH` is
`N + 1 + extraBodyBytes`; every valid pair (L, H) of spec/00_scope.md R6 has this form. DESIGN CHOICE (log entry 3). -/
opaque Config.extraBodyBytes : Nat

/-- OPEN: `MODE_TABLE` of the built instance (spec/30_encoding.md R62). DESIGN CHOICE (log entry 4): no entry is fixed. -/
opaque Config.modeTable : CodeTable Mode

/-- OPEN: `UNIT_TABLE` of the built instance (spec/30_encoding.md R65). DESIGN CHOICE (log entry 4): no entry is fixed. -/
opaque Config.unitTable : CodeTable UnitLabel

/-- OPEN: `MULT_TABLE` of the built instance (spec/30_encoding.md R66). DESIGN CHOICE (log entry 4): no entry is fixed. -/
opaque Config.multTable : CodeTable Multiplier

end Sys2Proof
end

