-- ==== Sys2Proof/Syntax.lean ====
section
/-! DEFINITION. The eleven interface operations and the ports on which the caller presents them. -/
namespace Sys2Proof

/-- The interface operations of spec/30_encoding.md R70, one constructor per row of the operation table. Operands are the
mathematical integers over which the rules are written (spec/00_scope.md R9). -/
inductive Instr where
  /-- IDLE: the caller makes no call (spec/41_framing.md R102). -/
  | idle
  /-- FEED: `feed(byte)`, with the environment's time `now` (spec/41_framing.md R103). -/
  | feed (b : Byte) (now : Time)
  /-- IS_SET: `is_set(flags, bit_position)`, the position signed (spec/40_bitflag.md R90). -/
  | isSet (flags : Nat) (pos : Int)
  /-- MODE (spec/42_decode.md R122). -/
  | mode
  /-- DECIMAL_PLACES (spec/42_decode.md R123). -/
  | decimalPlaces
  /-- VALUE (spec/42_decode.md R124). -/
  | value
  /-- UNITS (spec/42_decode.md R126). -/
  | units
  /-- RAW_PAYLOAD (spec/42_decode.md R127). -/
  | rawPayload
  /-- HAS_NEW_PAYLOAD_SINCE (spec/42_decode.md R128). -/
  | hasNewPayloadSince (ts : Time)
  /-- NEW: `new(frame_length, header_bytes)`, the length possibly zero or negative (spec/41_framing.md R100). -/
  | new (frameLength : Int) (header : List Byte)
  /-- RESET (spec/41_framing.md R101). -/
  | reset
deriving DecidableEq, Repr

/-- One presentation of the operation port and the operand ports (spec/30_encoding.md R70, R71), every operand port carrying
an integer at face value (R72). -/
structure Presentation where
  op             : BitVec 4
  argByte        : Byte
  now            : Time
  argFlags       : Nat
  argPos         : Int
  argTs          : Time
  cfgFrameLength : Int
  cfgHeader      : List Byte
deriving DecidableEq, Repr

end Sys2Proof
end

