-- ==== Sys2Proof/WellFormed.lean ====
section
/-! DEFINITION. Which operations a hardware instance with given port widths can be asked: every operand fits its port
(spec/00_scope.md R8, R9; spec/30_encoding.md R71). -/
namespace Sys2Proof

/-- Every operand fits its unsigned port. `arg_byte` and the operands of NEW (elaboration-time parameters, R71) always do;
a negative position does not exist on the unsigned port (R72). -/
def Instr.wellFormed (W : PortWidths) : Instr → Bool
  | .idle => true
  | .feed _ now => decide (now < 2 ^ W.tsW)
  | .isSet flags pos => decide (flags < 2 ^ W.flagsW) && decide (0 ≤ pos) && decide (pos < 2 ^ W.posW)
  | .mode => true
  | .decimalPlaces => true
  | .value => true
  | .units => true
  | .rawPayload => true
  | .hasNewPayloadSince ts => decide (ts < 2 ^ W.tsW)
  | .new _ _ => true
  | .reset => true

end Sys2Proof
end

