-- ==== Sys2Proof/Decode.lean ====
section
/-! DEFINITION. From a presentation of the ports to an operation and back (spec/30_encoding.md R70 to R72, R79). -/
namespace Sys2Proof

/-- Why a presentation selects no operation: `op` is one of the reserved codes 0xB to 0xF (spec/30_encoding.md R79). -/
inductive DecodeError where
  | reservedOp (op : BitVec 4)
deriving DecidableEq, Repr

/-- The operation a presentation selects (R70); ports the operation does not use are ignored (R71), and operands are taken
at face value (R72). Total: the reserved codes are rejected by name (R79). -/
def decode (p : Presentation) : Except DecodeError Instr :=
  match p.op.toNat with
  | 0x0 => .ok .idle
  | 0x1 => .ok (.feed p.argByte p.now)
  | 0x2 => .ok (.isSet p.argFlags p.argPos)
  | 0x3 => .ok .mode
  | 0x4 => .ok .decimalPlaces
  | 0x5 => .ok .value
  | 0x6 => .ok .units
  | 0x7 => .ok .rawPayload
  | 0x8 => .ok (.hasNewPayloadSince p.argTs)
  | 0x9 => .ok (.new p.cfgFrameLength p.cfgHeader)
  | 0xA => .ok .reset
  | _ => .error (.reservedOp p.op)

/-- The ports with an op code and every operand port at zero. -/
def Presentation.ofOp (op : BitVec 4) : Presentation :=
  { op := op, argByte := 0, now := 0, argFlags := 0, argPos := 0, argTs := 0, cfgFrameLength := 0, cfgHeader := [] }

/-- The presentation of an operation, the ports it does not use at zero (R70, R71). -/
def drive : Instr → Presentation
  | .idle => .ofOp 0x0
  | .feed b now => { Presentation.ofOp 0x1 with argByte := b, now := now }
  | .isSet flags pos => { Presentation.ofOp 0x2 with argFlags := flags, argPos := pos }
  | .mode => .ofOp 0x3
  | .decimalPlaces => .ofOp 0x4
  | .value => .ofOp 0x5
  | .units => .ofOp 0x6
  | .rawPayload => .ofOp 0x7
  | .hasNewPayloadSince ts => { Presentation.ofOp 0x8 with argTs := ts }
  | .new frameLength header => { Presentation.ofOp 0x9 with cfgFrameLength := frameLength, cfgHeader := header }
  | .reset => .ofOp 0xA

/-- What ports of the given widths carry of a presentation: the low bits, unsigned (spec/00_scope.md R8, R9; R71, R72). -/
def Presentation.sample (W : PortWidths) (p : Presentation) : Presentation :=
  { p with
    now := p.now % 2 ^ W.tsW
    argFlags := p.argFlags % 2 ^ W.flagsW
    argPos := p.argPos % 2 ^ W.posW
    argTs := p.argTs % 2 ^ W.tsW }

/-- The encoder: the presentation of an operation as ports of the given widths carry it. -/
def encode (W : PortWidths) (i : Instr) : Presentation := (drive i).sample W

/-- A presentation that hardware of the given widths can be shown: every port value fits its port. -/
def Presentation.fits (W : PortWidths) (p : Presentation) : Bool := decide (p.sample W = p)

/-- The port `op` and the operand ports its format uses, as `p` has them, every other port at zero: the column "used by" of
R71. -/
def Presentation.usedPorts (p : Presentation) : Presentation :=
  match p.op.toNat with
  | 0x1 => { Presentation.ofOp p.op with argByte := p.argByte, now := p.now }
  | 0x2 => { Presentation.ofOp p.op with argFlags := p.argFlags, argPos := p.argPos }
  | 0x8 => { Presentation.ofOp p.op with argTs := p.argTs }
  | 0x9 => { Presentation.ofOp p.op with cfgFrameLength := p.cfgFrameLength, cfgHeader := p.cfgHeader }
  | _ => .ofOp p.op

/-- The presentation a row of the operation table stands for: the table's 4 bits are `op[3:0]` and give the operand ports no
bits, so these are zero. DESIGN CHOICE (log entry 10): bits of `w` above bit 3 are on no port. -/
def presentationOfWord (_nbits w : Nat) : Presentation := .ofOp (BitVec.ofNat 4 w)

/-- The operation the decoder reads from a word of the operation table. -/
def decodeTableWord (nbits w : Nat) : Option Instr :=
  match decode (presentationOfWord nbits w) with
  | .ok i => some i
  | .error _ => none

/-- The operation's name in the operation table (spec/00_scope.md R15). -/
def Instr.mnemonic : Instr → String
  | .idle => "IDLE"
  | .feed _ _ => "FEED"
  | .isSet _ _ => "IS_SET"
  | .mode => "MODE"
  | .decimalPlaces => "DECIMAL_PLACES"
  | .value => "VALUE"
  | .units => "UNITS"
  | .rawPayload => "RAW_PAYLOAD"
  | .hasNewPayloadSince _ => "HAS_NEW_PAYLOAD_SINCE"
  | .new _ _ => "NEW"
  | .reset => "RESET"

end Sys2Proof
end

