-- ==== Sys2Proof/Machine/State.lean ====
section
/-! DEFINITION. The state of the machine: one FrameDecoder (spec/10_state.md R20), its look-up tables, and the interface to
the caller (the operations waiting to be presented and the response last driven). -/
namespace Sys2Proof.Machine

/-- The configuration given to NEW: "immutable, set at construction" (spec/10_state.md R21). -/
structure FrameSpec where
  frameLength : Nat
  header      : List Byte
deriving DecidableEq, Repr

/-- A completed frame and the time of its completion. The two are written together and present together
(spec/10_state.md R24, R25: "a model may hold them in one optional record"). -/
structure Completion where
  payload     : List Byte
  completedAt : Time
deriving DecidableEq, Repr

/-- The state of one FrameDecoder (spec/10_state.md R20). `partialBytes` is the document's `partial`; `completed` is absent
exactly when `have_payload` = 0. -/
structure FrameDecoder where
  spec         : FrameSpec
  cursor       : Nat
  partialBytes : List Byte
  completed    : Option Completion
deriving DecidableEq, Repr

/-- The two phases of the framing machine, derived from the cursor (spec/10_state.md R26). -/
inductive Phase where
  | headerSync
  | payloadFill
deriving DecidableEq, Repr

/-- The four arms of FEED (spec/41_framing.md R104 to R107). -/
inductive FeedArm where
  | headerMatch
  | headerMismatch
  | bodyByte
  | completion
deriving DecidableEq, Repr

/-- The byte spaces an address of the rules reaches (spec/00_scope.md R13, spec/20_memory.md R40). -/
inductive Space where
  | header
  | partialSpace
  | payload
deriving DecidableEq, Repr

/-- "exactly four kinds of error" (spec/60_exceptions.md R140). -/
inductive ErrorKind where
  | configError
  | outOfRange
  | overloadValue
  | unknownUnits
deriving DecidableEq, Repr

/-- The information of IS_SET's OutOfRange: position, flags value, computed bit length (spec/30_encoding.md R78). -/
structure BitInfo where
  pos    : Int
  flags  : Nat
  bitlen : Nat
deriving DecidableEq, Repr

/-- An error as a response carries it; only IS_SET's OutOfRange has information (spec/60_exceptions.md R147). -/
structure Err where
  kind : ErrorKind
  info : Option BitInfo
deriving DecidableEq, Repr

/-- What a successful operation answers (spec/30_encoding.md R74 to R78). -/
inductive Result where
  /-- FEED, IDLE, RESET: no result. -/
  | done
  /-- NEW: the instance. -/
  | constructed
  /-- IS_SET, HAS_NEW_PAYLOAD_SINCE: `res_bool`. -/
  | bool (b : Bool)
  /-- MODE: `mode_id`. -/
  | mode (l : ModeLabel)
  /-- DECIMAL_PLACES: `res_dp`. -/
  | decimalPlaces (dp : Byte)
  /-- VALUE: `val_sm`, `val_dp`; it denotes the rational `sm / 10^dp`. -/
  | value (sm : Int) (dp : Byte)
  /-- UNITS: `prefix_id`, `unit_id`. -/
  | units (p : SiPrefix) (u : UnitLabel)
  /-- RAW_PAYLOAD: `res_len`, `res_bytes`. -/
  | bytes (bs : List Byte)
deriving DecidableEq, Repr

/-- "Every operation returns a response Ok(v) or Err(kind, info)" (spec/00_scope.md R14). -/
inductive Response where
  | ok (r : Result)
  | err (e : Err)
deriving DecidableEq, Repr

/-- DecodedReading: "derived, not stored"; the responses of the accessors on one payload (spec/42_decode.md R129). -/
structure Reading where
  mode          : Response
  decimalPlaces : Response
  value         : Response
  units         : Response
  rawMagnitude  : Option Nat
  negative      : Option Bool
deriving DecidableEq, Repr

/-- The read-only status outputs, always driven from the current state (spec/60_exceptions.md R156). -/
structure StatusOutputs where
  stCursor          : Nat
  stFill            : Nat
  stPartial         : List Byte
  stHavePayload     : Bool
  stLastCompletedAt : Option Time
deriving DecidableEq, Repr

/-- The result ports of a response; a port that carries no meaning for it is absent (spec/30_encoding.md R73 to R78,
spec/93_implementation_defined.md U21). -/
structure ResultPorts where
  status   : BitVec 3
  modeId   : Option (BitVec 4)
  unitId   : Option (BitVec 4)
  prefixId : Option (BitVec 3)
  valSm    : Option (BitVec 20)
  valDp    : Option Byte
  resBool  : Option Bool
  resDp    : Option Byte
  resLen   : Option Nat
  resBytes : Option (List Byte)
  errPos   : Option Int
  errFlags : Option Nat
  errBitlen : Option Nat
deriving DecidableEq, Repr

/-- The machine. `decoder` is absent after a failed construction (spec/41_framing.md R100; spec/60_exceptions.md R149: "there is
no instance to continue with"). `pending` and `response` are the model's own fields (log entries 1 and 2): the presentations
the caller will make, oldest first, and the response driven in the last step. -/
structure State where
  decoder  : Option FrameDecoder
  tables   : Tables
  pending  : List Presentation
  response : Response
deriving DecidableEq, Repr

/-- No fault exists: an error is a response of the operation that found it, and "there is no asynchronous error, no machine
check, no watchdog" (spec/60_exceptions.md R140, R148). -/
inductive Fault where
deriving DecidableEq, Repr

/-- Why a step has no meaning. -/
inductive Refusal where
  /-- Raised by `exec` for an operation without a meaning yet (none is left). Safe. -/
  | notModelled (mnemonic : String)
  /-- Raised by every operation but NEW when no instance exists: spec/93_implementation_defined.md U15, "`refuse`: there is no
  instance and no state". Safe: it claims nothing. -/
  | noInstance
  /-- Raised by `step` for the op codes 0xB to 0xF: spec/30_encoding.md R79, "A model **refuses** them". Safe: a hardware
  instance holds its state. -/
  | reservedOp (op : BitVec 4)
deriving DecidableEq, Repr

/-- After power-up, which is a RESET: the Fresh state (spec/70_reset_and_hazards.md R170, spec/10_state.md R34) over the built
instance's OPEN configuration, with no call made yet (log entries 1 to 4). -/
def State.reset : State :=
  { decoder := some
      { spec := { frameLength := Config.header.length + 1 + Config.extraBodyBytes, header := Config.header }
        cursor := 0
        partialBytes := []
        completed := none }
    tables := { mode := Config.modeTable, unit := Config.unitTable, mult := Config.multTable }
    pending := []
    response := .ok .done }

end Sys2Proof.Machine
end

