-- ==== Sys2Proof/Machine/Ops.lean ====
section
/-! DEFINITION. The shared operations: the byte spaces, the Fresh state, the four arms of FEED, answering and raising, and the
next presentation of the caller. -/
namespace Sys2Proof.Machine

/-- `L` (spec/00_scope.md R6). -/
abbrev FrameDecoder.frameLength (d : FrameDecoder) : Nat := d.spec.frameLength

/-- `H` (spec/00_scope.md R6). -/
abbrev FrameDecoder.header (d : FrameDecoder) : List Byte := d.spec.header

/-- `N = len(H)` (spec/00_scope.md R6). -/
abbrev FrameDecoder.headerLength (d : FrameDecoder) : Nat := d.spec.header.length

/-- `fill = len(partial)` (spec/10_state.md R23). -/
abbrev FrameDecoder.fill (d : FrameDecoder) : Nat := d.partialBytes.length

/-- `have_payload` (spec/10_state.md R24, R28). -/
def FrameDecoder.havePayload (d : FrameDecoder) : Bool := d.completed.isSome

/-- `last_payload` as a sequence: "else `[]`" (spec/10_state.md R24). -/
def FrameDecoder.lastPayload (d : FrameDecoder) : List Byte :=
  match d.completed with
  | some c => c.payload
  | none => []

/-- `last_completed_at`, present iff `have_payload` = 1 (spec/10_state.md R25). -/
def FrameDecoder.lastCompletedAt (d : FrameDecoder) : Option Time := d.completed.map Completion.completedAt

/-- The contents of a byte space, address = index (spec/20_memory.md R40 to R43); a byte without meaning (PARTIAL above
`fill`, PAYLOAD while absent) is absent. -/
def FrameDecoder.space (d : FrameDecoder) : Space → List Byte
  | .header => d.header
  | .partialSpace => d.partialBytes
  | .payload => d.lastPayload

/-- `MemRead(space, addr, n)`: the `n` bytes at `addr .. addr+n-1` (spec/00_scope.md R13), absent when one of them is. -/
def FrameDecoder.memRead (d : FrameDecoder) (sp : Space) (addr n : Nat) : Option (List Byte) :=
  if addr + n ≤ (d.space sp).length then some (((d.space sp).drop addr).take n) else none

/-- One byte of a space. -/
def FrameDecoder.readByte (d : FrameDecoder) (sp : Space) (addr : Nat) : Option Byte := (d.space sp)[addr]?

/-- The Fresh state of an instance (spec/10_state.md R34). -/
def FrameDecoder.fresh (sp : FrameSpec) : FrameDecoder :=
  { spec := sp, cursor := 0, partialBytes := [], completed := none }

/-- The phase, derived from the cursor (spec/10_state.md R26). -/
def FrameDecoder.phase (d : FrameDecoder) : Phase :=
  if d.cursor < d.headerLength then .headerSync else .payloadFill

/-- Which arm of FEED a byte takes, decided from the state before the byte (spec/41_framing.md R103). -/
def FrameDecoder.feedArm (d : FrameDecoder) (b : Byte) : FeedArm :=
  if d.cursor < d.headerLength then
    if d.readByte .header d.cursor = some b then .headerMatch else .headerMismatch
  else
    if d.fill + 1 < d.frameLength then .bodyByte else .completion

/-- The address of PARTIAL at which an accepted byte is stored (spec/20_memory.md R42). -/
def FrameDecoder.storeAddress (d : FrameDecoder) : Nat := d.fill

/-- "append byte to `partial`, increment `cursor`" (spec/41_framing.md R104). -/
def FrameDecoder.matchHeader (d : FrameDecoder) (b : Byte) : FrameDecoder :=
  { d with partialBytes := d.partialBytes ++ [b], cursor := d.cursor + 1 }

/-- "discard all accumulated progress"; the byte itself is dropped (spec/41_framing.md R105). -/
def FrameDecoder.dropAttempt (d : FrameDecoder) : FrameDecoder :=
  { d with cursor := 0, partialBytes := [] }

/-- "append and remain in PAYLOAD_FILL" (spec/41_framing.md R106). -/
def FrameDecoder.appendBody (d : FrameDecoder) (b : Byte) : FrameDecoder :=
  { d with partialBytes := d.partialBytes ++ [b] }

/-- Completion, in one step (spec/41_framing.md R107, spec/20_memory.md R52); `now` is stored as given. -/
def FrameDecoder.complete (d : FrameDecoder) (b : Byte) (now : Time) : FrameDecoder :=
  { d with completed := some { payload := d.partialBytes ++ [b], completedAt := now }, cursor := 0, partialBytes := [] }

/-- FEED on the decoder (spec/41_framing.md R103, R111). -/
def FrameDecoder.feed (d : FrameDecoder) (b : Byte) (now : Time) : FrameDecoder :=
  match d.feedArm b with
  | .headerMatch => d.matchHeader b
  | .headerMismatch => d.dropAttempt
  | .bodyByte => d.appendBody b
  | .completion => d.complete b now

/-- Drive a response; nothing else changes. -/
def State.respond (s : State) (r : Response) : State := { s with response := r }

/-- `raise K(info)`: the response is `Err(K, info)` and no state changes (spec/60_exceptions.md R148, spec/00_scope.md R14).
There is no return operation, since nothing was entered (R149). -/
def State.raise (s : State) (e : Err) : State := s.respond (.err e)

/-- The end of a fallible operation: `return v` or `raise`. -/
def State.answer (s : State) : Except Err Result → State
  | .ok r => s.respond (.ok r)
  | .error e => s.raise e

/-- Run an operation on the instance; without one there is nothing to run it on
(spec/93_implementation_defined.md U15: `refuse`). -/
def State.withDecoder (s : State) (f : FrameDecoder → State) : Host.Outcome State Fault Refusal :=
  match s.decoder with
  | some d => .next (f d)
  | none => .refused .noInstance

/-- The presentation of this step and the state after it is taken: the oldest pending one, or, when the caller makes no call,
the IDLE presentation (spec/41_framing.md R102). -/
def State.takePresentation (s : State) : Presentation × State :=
  match s.pending with
  | p :: rest => (p, { s with pending := rest })
  | [] => (.ofOp 0x0, s)

end Sys2Proof.Machine
end

