-- ==== Sys2Proof/Machine/Operands.lean ====
section
/-! DEFINITION. Operand forms: the payload field map with its bounds check, the table look-up, the decimal digits, the bit
length and the bit test of the BitFlagInspector. -/
namespace Sys2Proof.Machine

/-! The payload offsets (spec/30_encoding.md R61). -/

def offMode : Nat := 4
def offDigit0 : Nat := 5
def offDigit1 : Nat := 6
def offDigit2 : Nat := 7
def offDigit3 : Nat := 8
def offDecimalPlaces : Nat := 9
def offUnit : Nat := 10
def offMult : Nat := 11
def offSign : Nat := 12

/-! The error values: kinds with, for IS_SET's OutOfRange only, their information (spec/60_exceptions.md R141 to R144). -/

def errConfig : Err := { kind := .configError, info := none }
def errPayload : Err := { kind := .outOfRange, info := none }
def errBit (i : BitInfo) : Err := { kind := .outOfRange, info := some i }
def errOverload : Err := { kind := .overloadValue, info := none }
def errUnits : Err := { kind := .unknownUnits, info := none }

/-- `require(need)`: a payload is present and `L >= need`, checked before anything else (spec/42_decode.md R120). -/
def FrameDecoder.require (d : FrameDecoder) (need : Nat) : Except Err Unit :=
  if d.havePayload = false ∨ d.frameLength < need then .error errPayload else .ok ()

/-- `payload[i]`. "No read returns a default": an absent byte is OutOfRange (spec/20_memory.md R51). After `require` a byte is
absent only in states no run reaches (log entry 8). -/
def FrameDecoder.payloadByte (d : FrameDecoder) (i : Nat) : Except Err Byte :=
  match d.readByte .payload i with
  | some b => .ok b
  | none => .error errPayload

/-- `lookup(T, c)` (spec/20_memory.md R44); a byte is always a valid index. -/
def tableLookup {α : Type} (T : CodeTable α) (c : Byte) : Option α := T[c.toNat]'c.isLt

/-- "sum(digit_byte_i * 10^i)": whole bytes, the lowest offset has the lowest weight (spec/20_memory.md R46,
spec/30_encoding.md R63). -/
def digitSum (d0 d1 d2 d3 : Byte) : Nat := d0.toNat * 1 + d1.toNat * 10 + d2.toNat * 100 + d3.toNat * 1000

/-- `bit_length(v)`: the 1-based position of the highest set bit, 0 for 0 (spec/40_bitflag.md R91; log entry 11). -/
def bitLength (v : Nat) : Nat := if v = 0 then 0 else Nat.log2 v + 1

/-- `is_set(flags, pos)`, the three checks in the rule's order (spec/40_bitflag.md R90). -/
def bitIsSet (flags : Nat) (pos : Int) : Except Err Bool :=
  if flags = 0 then .ok false
  else if pos < 0 ∨ pos > bitLength flags then .error (errBit { pos := pos, flags := flags, bitlen := bitLength flags })
  else .ok (flags.testBit pos.toNat)

/-- The exact rational a VALUE response denotes: `sm / 10^dp` (spec/30_encoding.md R77, spec/42_decode.md R125). -/
def scaledValue (sm : Int) (dp : Byte) : Rat := (sm : Rat) / (10 : Rat) ^ dp.toNat

/-- The smallest number of bits that holds the values below `n`: `ceil(log2(n))` (spec/10_state.md R29, R35). -/
def ceilLog2 (n : Nat) : Nat := if n ≤ 1 then 0 else Nat.log2 (n - 1) + 1

end Sys2Proof.Machine
end

