-- ==== Sys2Proof/Machine/Flags.lean ====
section
/-! DEFINITION. The status code, the label numbers and texts, the result ports and the status outputs
(spec/30_encoding.md R73 to R78, spec/60_exceptions.md R156). -/
namespace Sys2Proof.Machine

/-- The status codes of the four errors (spec/30_encoding.md R73). -/
def ErrorKind.status : ErrorKind → BitVec 3
  | .configError => 1
  | .outOfRange => 2
  | .overloadValue => 3
  | .unknownUnits => 4

/-- `status`: 0 for every operation that succeeds (spec/30_encoding.md R73). -/
def Response.status : Response → BitVec 3
  | .ok _ => 0
  | .err e => e.kind.status

/-- `mode_id` (spec/30_encoding.md R74). -/
def modeId : ModeLabel → BitVec 4
  | .unknown => 0
  | .known .vac => 1
  | .known .vdc => 2
  | .known .resistance => 3
  | .known .capacitance => 4
  | .known .temperature => 5
  | .known .ampsDC => 6
  | .known .mAmpsDC => 7
  | .known .uAmpsDC => 8
  | .known .ampsAC => 9
  | .known .mAmpsAC => 10
  | .known .uAmpsAC => 11
  | .known .diodeTest => 12
  | .known .frequency => 13
  | .known .continuity => 14

/-- The mode label's text (spec/30_encoding.md R62, R74). -/
def modeText : ModeLabel → String
  | .unknown => "Unknown"
  | .known .vac => "VAC"
  | .known .vdc => "VDC"
  | .known .resistance => "Resistance"
  | .known .capacitance => "Capacitance"
  | .known .temperature => "Temperature"
  | .known .ampsDC => "Amps-DC"
  | .known .mAmpsDC => "mAmps-DC"
  | .known .uAmpsDC => "uAmps-DC"
  | .known .ampsAC => "Amps-AC"
  | .known .mAmpsAC => "mAmps-AC"
  | .known .uAmpsAC => "uAmps-AC"
  | .known .diodeTest => "Diode-test"
  | .known .frequency => "Frequency"
  | .known .continuity => "Continuity"

/-- `unit_id` (spec/30_encoding.md R75). -/
def unitId : UnitLabel → BitVec 4
  | .volt => 0
  | .amp => 1
  | .ohms => 2
  | .hertz => 3
  | .farad => 4
  | .ohmsContinuity => 5
  | .voltDiodeTest => 6
  | .degC => 7
  | .degF => 8
  | .percent => 9

/-- The unit label's text (spec/30_encoding.md R65, R75). -/
def unitText : UnitLabel → String
  | .volt => "V"
  | .amp => "A"
  | .ohms => "Ohms"
  | .hertz => "Hz"
  | .farad => "F"
  | .ohmsContinuity => "Ohms-continuity"
  | .voltDiodeTest => "V-diode-test"
  | .degC => "Deg-C"
  | .degF => "Deg-F"
  | .percent => "%"

/-- `prefix_id` (spec/30_encoding.md R76). -/
def prefixId : SiPrefix → BitVec 3
  | .empty => 0
  | .kilo => 1
  | .mega => 2
  | .nano => 3
  | .micro => 4
  | .milli => 5

/-- The SI prefix string (spec/30_encoding.md R66, R76). -/
def prefixText : SiPrefix → String
  | .empty => ""
  | .kilo => "k"
  | .mega => "M"
  | .nano => "n"
  | .micro => "u"
  | .milli => "m"

/-- The text of `units()`: "prefix + unit label", no separator (spec/30_encoding.md R76). -/
def unitsText (p : SiPrefix) (u : UnitLabel) : String := prefixText p ++ unitText u

/-- `val_sm[19:0]`: the signed magnitude in 20-bit two's complement (spec/30_encoding.md R77). -/
def valSmPort (sm : Int) : BitVec 20 := BitVec.ofInt 20 sm

/-- The result ports with every port but `status` without meaning. -/
def ResultPorts.silent (st : BitVec 3) : ResultPorts :=
  { status := st, modeId := none, unitId := none, prefixId := none, valSm := none, valDp := none, resBool := none
    resDp := none, resLen := none, resBytes := none, errPos := none, errFlags := none, errBitlen := none }

/-- What a response drives on the result ports (spec/30_encoding.md R73 to R78). -/
def Response.ports : Response → ResultPorts
  | .ok .done => .silent 0
  | .ok .constructed => .silent 0
  | .ok (.bool b) => { ResultPorts.silent 0 with resBool := some b }
  | .ok (.mode l) => { ResultPorts.silent 0 with modeId := some (Machine.modeId l) }
  | .ok (.decimalPlaces dp) => { ResultPorts.silent 0 with resDp := some dp }
  | .ok (.value sm dp) => { ResultPorts.silent 0 with valSm := some (valSmPort sm), valDp := some dp }
  | .ok (.units p u) =>
      { ResultPorts.silent 0 with prefixId := some (Machine.prefixId p), unitId := some (Machine.unitId u) }
  | .ok (.bytes bs) => { ResultPorts.silent 0 with resLen := some bs.length, resBytes := some bs }
  | .err e =>
      { ResultPorts.silent e.kind.status with
        errPos := e.info.map BitInfo.pos, errFlags := e.info.map BitInfo.flags, errBitlen := e.info.map BitInfo.bitlen }

/-- The status outputs of the instance (spec/60_exceptions.md R156, spec/10_state.md R30). -/
def FrameDecoder.statusOutputs (d : FrameDecoder) : StatusOutputs :=
  { stCursor := d.cursor, stFill := d.fill, stPartial := d.partialBytes
    stHavePayload := d.havePayload, stLastCompletedAt := d.lastCompletedAt }

/-- The widths a hardware instance of a configuration needs for `cursor` and `fill` (spec/10_state.md R29). -/
def FrameSpec.cursorWidth (sp : FrameSpec) : Nat := ceilLog2 (sp.header.length + 1)

def FrameSpec.fillWidth (sp : FrameSpec) : Nat := ceilLog2 sp.frameLength

/-- The bits of a hardware instance besides the tables: two frame buffers, the header constant, the control state and the
timestamp (spec/10_state.md R35). -/
def FrameSpec.sizeInBits (W : PortWidths) (sp : FrameSpec) : Nat :=
  8 * (2 * sp.frameLength) + 8 * sp.header.length + (sp.cursorWidth + sp.fillWidth + 1) + W.tsW

end Sys2Proof.Machine
end

