-- ==== Sys2Proof/Machine/Accessors.lean ====
section
/-! DEFINITION. The payload decoder: MODE, DECIMAL_PLACES, VALUE, UNITS, RAW_PAYLOAD, HAS_NEW_PAYLOAD_SINCE
(spec/42_decode.md). Each accessor is a pure function of the decoder and the tables, and its operation answers with it. -/
namespace Sys2Proof.Machine

/-- `mode()`: an unknown code is the label "Unknown", not an error (spec/42_decode.md R122). -/
def FrameDecoder.mode (d : FrameDecoder) (T : Tables) : Except Err Result := do
  d.require 5
  let code ← d.payloadByte offMode
  .ok (.mode ((tableLookup T.mode code).elim .unknown .known))

/-- `decimal_places()` (spec/42_decode.md R123). -/
def FrameDecoder.decimalPlaces (d : FrameDecoder) : Except Err Result := do
  d.require 10
  let dp ← d.payloadByte offDecimalPlaces
  .ok (.decimalPlaces dp)

/-- `value()`, the checks in the rule's order: size, overload, blank, digits, sign (spec/42_decode.md R124). -/
def FrameDecoder.value (d : FrameDecoder) : Except Err Result := do
  d.require 13
  let d0 ← d.payloadByte offDigit0
  if d0 = 0x0B ∨ d0 = 0x0F then .error errOverload
  else do
    let d3 ← d.payloadByte offDigit3
    let dp ← d.payloadByte offDecimalPlaces
    if d3 = 0x0F then .ok (.value 0 dp)
    else do
      let d1 ← d.payloadByte offDigit1
      let d2 ← d.payloadByte offDigit2
      let flags ← d.payloadByte offSign
      let neg ← bitIsSet flags.toNat 0
      .ok (.value (if neg then -(digitSum d0 d1 d2 d3 : Int) else (digitSum d0 d1 d2 d3 : Int)) dp)

/-- `units()`: one error kind for a miss of either table or both (spec/42_decode.md R126). -/
def FrameDecoder.units (d : FrameDecoder) (T : Tables) : Except Err Result := do
  d.require 12
  let uc ← d.payloadByte offUnit
  let mc ← d.payloadByte offMult
  match tableLookup T.unit uc, tableLookup T.mult mc with
  | some u, some m => .ok (.units m.siPrefix u)
  | _, _ => .error errUnits

/-- `raw_payload()`: all bytes, or the empty sequence before the first completion (spec/42_decode.md R127). -/
def FrameDecoder.rawPayload (d : FrameDecoder) : Except Err Result := .ok (.bytes d.lastPayload)

/-- `has_new_payload_since(ts)`: present and strictly later (spec/42_decode.md R128). -/
def FrameDecoder.hasNewPayloadSince (d : FrameDecoder) (ts : Time) : Except Err Result :=
  .ok (.bool (match d.completed with
    | some c => decide (c.completedAt > ts)
    | none => false))

/-- MODE. -/
def execMode (s : State) : Host.Outcome State Fault Refusal := s.withDecoder fun d => s.answer (d.mode s.tables)

/-- DECIMAL_PLACES. -/
def execDecimalPlaces (s : State) : Host.Outcome State Fault Refusal := s.withDecoder fun d => s.answer d.decimalPlaces

/-- VALUE. -/
def execValue (s : State) : Host.Outcome State Fault Refusal := s.withDecoder fun d => s.answer d.value

/-- UNITS. -/
def execUnits (s : State) : Host.Outcome State Fault Refusal := s.withDecoder fun d => s.answer (d.units s.tables)

/-- RAW_PAYLOAD. -/
def execRawPayload (s : State) : Host.Outcome State Fault Refusal := s.withDecoder fun d => s.answer d.rawPayload

/-- HAS_NEW_PAYLOAD_SINCE. -/
def execHasNewPayloadSince (ts : Time) (s : State) : Host.Outcome State Fault Refusal :=
  s.withDecoder fun d => s.answer (d.hasNewPayloadSince ts)

/-- The response an accessor's outcome is. -/
def Response.ofExcept : Except Err Result → Response
  | .ok r => .ok r
  | .error e => .err e

/-- DecodedReading: the responses of the accessors on the last payload; `rawMagnitude` = |sm| when VALUE succeeds, `negative` =
the sign-flag bit when that byte exists (spec/42_decode.md R129, spec/10_state.md R32). -/
def FrameDecoder.reading (d : FrameDecoder) (T : Tables) : Reading :=
  { mode := .ofExcept (d.mode T)
    decimalPlaces := .ofExcept d.decimalPlaces
    value := .ofExcept d.value
    units := .ofExcept (d.units T)
    rawMagnitude :=
      match d.value with
      | .ok (.value sm _) => some sm.natAbs
      | _ => none
    negative := (d.readByte .payload offSign).map fun b => b.getLsbD 0 }

end Sys2Proof.Machine
end

