-- ==== Sys2Proof/Machine/Framing.lean ====
section
/-! DEFINITION. The framing state machine: NEW, RESET, IDLE, FEED (spec/41_framing.md). -/
namespace Sys2Proof.Machine

/-- The check of NEW: "`frame_length < 1` or `frame_length <= len(header)`" is the configuration error (spec/41_framing.md R100). -/
def frameSpecOk (frameLength : Int) (header : List Byte) : Bool :=
  !(decide (frameLength < 1) || decide (frameLength ≤ header.length))

/-- NEW (spec/41_framing.md R100). On `ConfigError` "no instance exists", also when one existed before (log entry 6). -/
def execNew (frameLength : Int) (header : List Byte) (s : State) : Host.Outcome State Fault Refusal :=
  if frameSpecOk frameLength header then
    .next ({ s with decoder := some (.fresh { frameLength := frameLength.toNat, header := header }) }.respond (.ok .constructed))
  else
    .next ({ s with decoder := none }.raise errConfig)

/-- RESET (spec/41_framing.md R101): the Fresh state, `L`, `H` and the tables kept. -/
def execReset (s : State) : Host.Outcome State Fault Refusal :=
  s.withDecoder fun d => { s with decoder := some (.fresh d.spec) }.respond (.ok .done)

/-- IDLE (spec/41_framing.md R102): no state is read or written. -/
def execIdle (s : State) : Host.Outcome State Fault Refusal :=
  s.withDecoder fun _ => s.respond (.ok .done)

/-- FEED (spec/41_framing.md R103); it never fails (R109). -/
def execFeed (b : Byte) (now : Time) (s : State) : Host.Outcome State Fault Refusal :=
  s.withDecoder fun d => { s with decoder := some (d.feed b now) }.respond (.ok .done)

end Sys2Proof.Machine
end

