-- ==== Sys2Proof/Machine/Inspector.lean ====
section
/-! DEFINITION. The BitFlagInspector: IS_SET (spec/40_bitflag.md). -/
namespace Sys2Proof.Machine

/-- IS_SET (spec/40_bitflag.md R90): the response depends on the operands only; no state is written. -/
def execIsSet (flags : Nat) (pos : Int) (s : State) : Host.Outcome State Fault Refusal :=
  s.withDecoder fun _ => s.answer ((bitIsSet flags pos).map .bool)

end Sys2Proof.Machine
end

