-- ==== Sys2Proof/Machine/Dispatch.lean ====
section
/-! DEFINITION. One arm per operation, each a direct call of its meaning. -/
namespace Sys2Proof.Machine

def exec (i : Instr) (s : State) : Host.Outcome State Fault Refusal :=
  match i with
  | .idle => Sys2Proof.Machine.execIdle s
  | .feed b now => Sys2Proof.Machine.execFeed b now s
  | .isSet flags pos => Sys2Proof.Machine.execIsSet flags pos s
  | .mode => Sys2Proof.Machine.execMode s
  | .decimalPlaces => Sys2Proof.Machine.execDecimalPlaces s
  | .value => Sys2Proof.Machine.execValue s
  | .units => Sys2Proof.Machine.execUnits s
  | .rawPayload => Sys2Proof.Machine.execRawPayload s
  | .hasNewPayloadSince ts => Sys2Proof.Machine.execHasNewPayloadSince ts s
  | .new frameLength header => Sys2Proof.Machine.execNew frameLength header s
  | .reset => Sys2Proof.Machine.execReset s

end Sys2Proof.Machine
end

