-- ==== Sys2Proof/Machine/Step.lean ====
section
/-! DEFINITION. One step: one presentation of the caller, decoded and run (spec/00_scope.md R5, spec/70_reset_and_hazards.md
R188). -/
namespace Sys2Proof.Machine

/-- One operation is one atomic step (spec/00_scope.md R5). A reserved op code is refused (spec/30_encoding.md R79). -/
def step (s : State) : Host.Outcome State Fault Refusal :=
  match decode s.takePresentation.1 with
  | .ok i => exec i s.takePresentation.2
  | .error (.reservedOp op) => .refused (.reservedOp op)

/-- The state with the presentation of a table word as the caller's next one (log entries 1 and 10). -/
def State.withFetchWord (s : State) (nbits w : Nat) : State :=
  { s with pending := presentationOfWord nbits w :: s.pending }

end Sys2Proof.Machine
end

