-- ==== Sys2Proof/Machine/Pseudo.lean ====
section
/-! DEFINITION. The pseudo-operations FEEDN, POLL and READING of spec/30_encoding.md R83, and the fold of FEED over a sequence of
bytes (spec/41_framing.md R116). -/
namespace Sys2Proof.Machine

/-- `FEEDN [b0, b1, ...] @t0`: the bytes one at a time in order, at times `t0, t0+1, ...`; the `+1` is the test scripts'
convention (R83). -/
def feedN : List Byte → Time → List Instr
  | [], _ => []
  | b :: bs, t => .feed b t :: feedN bs (t + 1)

/-- `POLL prev`: the question; the refresh of `prev` is a read of the status output `st_last_completed_at` (R83). -/
def pollOps (prev : Time) : List Instr := [.hasNewPayloadSince prev]

/-- The caller's `prev` after a poll: refreshed from the status output when the answer is true (R83). -/
def refreshPrev (d : FrameDecoder) (prev : Time) : Time :=
  match d.hasNewPayloadSince prev with
  | .ok (.bool true) => d.lastCompletedAt.getD prev
  | _ => prev

/-- `READING`: the three accessors, each independently fallible (R83). -/
def readingOps : List Instr := [.mode, .value, .units]

/-- Feeding a sequence of bytes, each with its time, in order (spec/41_framing.md R116). -/
def FrameDecoder.feedAll : FrameDecoder → List (Byte × Time) → FrameDecoder
  | d, [] => d
  | d, (b, t) :: fs => (d.feed b t).feedAll fs

/-- The frames completed while a sequence is fed, in order. -/
def FrameDecoder.completionsOf : FrameDecoder → List (Byte × Time) → List Completion
  | _, [] => []
  | d, (b, t) :: fs =>
      (if d.feedArm b = .completion then [{ payload := d.partialBytes ++ [b], completedAt := t }] else [])
        ++ (d.feed b t).completionsOf fs

/-- Gaps and payloads of a stream put together again: gap, payload, gap, payload, ... (spec/41_framing.md R115). -/
def interleave : List (List Byte) → List (List Byte) → List Byte
  | g :: gs, p :: ps => g ++ p ++ interleave gs ps
  | _, _ => []

/-- The presentations of a sequence of FEEDs. -/
def feedPresentations (fs : List (Byte × Time)) : List Presentation := fs.map fun f => drive (.feed f.1 f.2)

end Sys2Proof.Machine
end

