-- ==== Sys2Proof/Safety.lean ====
section
/-! DEFINITION. What holds of every state a run reaches (spec/10_state.md R27), which responses an operation can give
(spec/60_exceptions.md R140 to R147), and the environment's premise on time (spec/00_scope.md R8). -/
namespace Sys2Proof

open Machine

/-- The operations that write no state (spec/10_state.md R33). -/
def Instr.readOnly : Instr → Bool
  | .idle => true
  | .feed _ _ => false
  | .isSet _ _ => true
  | .mode => true
  | .decimalPlaces => true
  | .value => true
  | .units => true
  | .rawPayload => true
  | .hasNewPayloadSince _ => true
  | .new _ _ => false
  | .reset => false

/-- The error kinds an operation can answer with (spec/60_exceptions.md R141 to R145). -/
def Instr.mayRaise : Instr → ErrorKind → Bool
  | .new _ _, .configError => true
  | .isSet _ _, .outOfRange => true
  | .mode, .outOfRange => true
  | .decimalPlaces, .outOfRange => true
  | .value, .outOfRange => true
  | .value, .overloadValue => true
  | .units, .outOfRange => true
  | .units, .unknownUnits => true
  | _, _ => false

end Sys2Proof

namespace Sys2Proof.Machine

/-- "`frame_length >= 1` and `frame_length > len(header)`" (spec/10_state.md R21). -/
structure FrameSpec.Valid (sp : FrameSpec) : Prop where
  positive : 1 ≤ sp.frameLength
  longer   : sp.header.length < sp.frameLength

/-- The invariants INV1 to INV7 of spec/10_state.md R27. INV6, the payload and its time present together, is the one optional
record of `completed`. -/
structure FrameDecoder.Inv (d : FrameDecoder) : Prop where
  valid : d.spec.Valid
  inv1  : d.cursor ≤ d.headerLength
  inv2  : d.cursor < d.headerLength → d.fill = d.cursor
  inv3  : d.cursor = d.headerLength → d.headerLength ≤ d.fill ∧ d.fill ≤ d.frameLength - 1
  inv4  : d.cursor = min d.fill d.headerLength ∧ ∀ i < d.cursor, d.partialBytes[i]? = d.header[i]?
  inv5  : ∀ c, d.completed = some c →
            c.payload.length = d.frameLength ∧ ∀ i < d.headerLength, c.payload[i]? = d.header[i]?
  inv6  : d.lastCompletedAt.isSome = d.havePayload
  inv7  : d.fill ≤ d.frameLength - 1

/-- The invariant of the machine: its instance, when it has one, meets INV1 to INV7. -/
def State.Inv (s : State) : Prop := ∀ d, s.decoder = some d → d.Inv

/-- A response within the ranges of spec/30_encoding.md R73 to R78: a value magnitude in -283305 .. 283305, error information
only with OutOfRange. -/
def Response.InRange : Response → Prop
  | .ok (.value sm _) => -283305 ≤ sm ∧ sm ≤ 283305
  | .err e => e.info.isSome = true → e.kind = .outOfRange
  | _ => True

/-- The environment's premise: the values of `now` at the completions of a fed sequence do not decrease, nor lie below the time
already stored (spec/00_scope.md R8, spec/60_exceptions.md R153). -/
def FrameDecoder.TimesNonDecreasing (d : FrameDecoder) (fs : List (Byte × Time)) : Prop :=
  (d.lastCompletedAt.toList ++ (d.completionsOf fs).map Completion.completedAt).Pairwise (· ≤ ·)

/-- Two decoders that agree on all the payload accessors read: presence, the payload, and `L` (spec/42_decode.md R121). -/
structure FrameDecoder.SameReading (d e : FrameDecoder) : Prop where
  present : d.havePayload = e.havePayload
  payload : d.lastPayload = e.lastPayload
  length  : d.frameLength = e.frameLength

/-- `MULT_TABLE` has the shape spec/30_encoding.md R66 states: every prefix is reached, milli by two distinct codes. -/
def MultTableShape (T : CodeTable Multiplier) : Prop :=
  (∀ p : SiPrefix, ∃ c m, tableLookup T c = some m ∧ m.siPrefix = p) ∧
  ∃ c₁ c₂ m₁ m₂, c₁ ≠ c₂ ∧ tableLookup T c₁ = some m₁ ∧ tableLookup T c₂ = some m₂ ∧
    m₁.siPrefix = .milli ∧ m₂.siPrefix = .milli

end Sys2Proof.Machine
end

