-- ==== Sys2Proof/Certificates/Slice0/Obligations.lean ====
section
/-! DEFINITION. The statements about the machine, from the numbered rules of spec/. `d` is the instance, `s` a machine state;
`{ s with response := r }` is the state in which nothing but the response changed. -/

open Sys2Proof Sys2Proof.Machine

/-! ### Steps and encodings -/

/-- A step takes the oldest presentation and runs the operation it decodes to; with none it is IDLE (R102); a reserved code is
refused (R79). `pending` is the model's choice (log entry 1). -/
def Obligations.StepRunsDecodedOperation : Prop :=
  (∀ (s : State) (p : Presentation) (rest : List Presentation) (i : Instr),
    s.pending = p :: rest → decode p = .ok i → step s = exec i { s with pending := rest }) ∧
  (∀ s : State, s.pending = [] → step s = exec .idle s) ∧
  (∀ (s : State) (p : Presentation) (rest : List Presentation),
    s.pending = p :: rest → 0xB ≤ p.op.toNat → step s = .refused (.reservedOp p.op))

/-- The operation table of R70 with the operand ports of R71 at face value (R72), and the reserved codes of R79. -/
def Obligations.OpCodeSelectsOperation : Prop :=
  ∀ p : Presentation,
    (p.op = 0x0 → decode p = .ok .idle) ∧
    (p.op = 0x1 → decode p = .ok (.feed p.argByte p.now)) ∧
    (p.op = 0x2 → decode p = .ok (.isSet p.argFlags p.argPos)) ∧
    (p.op = 0x3 → decode p = .ok .mode) ∧
    (p.op = 0x4 → decode p = .ok .decimalPlaces) ∧
    (p.op = 0x5 → decode p = .ok .value) ∧
    (p.op = 0x6 → decode p = .ok .units) ∧
    (p.op = 0x7 → decode p = .ok .rawPayload) ∧
    (p.op = 0x8 → decode p = .ok (.hasNewPayloadSince p.argTs)) ∧
    (p.op = 0x9 → decode p = .ok (.new p.cfgFrameLength p.cfgHeader)) ∧
    (p.op = 0xA → decode p = .ok .reset) ∧
    (0xB ≤ p.op.toNat → decode p = .error (.reservedOp p.op))

/-- Ports of any widths lose no bit of an operation that fits them: decoding the encoding gives the operation back. -/
def Obligations.DecodeEncodeRoundTrip : Prop :=
  ∀ (W : PortWidths) (i : Instr), i.wellFormed W = true →
    decode (encode W i) = .ok i ∧ (encode W i).fits W = true

/-- A presentation that fits its ports decodes to a well-formed operation, and encoding that gives back `op` and the operand
ports the operation uses as they were presented, the others zero. Decoding does not depend on the others (R71: "ignored
otherwise"), whatever they hold. -/
def Obligations.EncodeDecodeUsedPorts : Prop :=
  (∀ (W : PortWidths) (p : Presentation) (i : Instr), p.fits W = true → decode p = .ok i →
    i.wellFormed W = true ∧ encode W i = p.usedPorts) ∧
  (∀ p : Presentation, decode p.usedPorts = decode p) ∧
  ∀ p q : Presentation, p.usedPorts = q.usedPorts → decode p = decode q

/-! ### The BitFlagInspector -/

/-- IS_SET, whole (R90): zero test, range guard with its information, bit test; nothing but the response changes.
The upper bound is the 1-based bit length, the spec's decision D19 (log entry 11). -/
def Obligations.IsSetAnswersBit : Prop :=
  (∀ p : Presentation, p.op = 0x2 → decode p = .ok (.isSet p.argFlags p.argPos)) ∧
  ∀ (s : State) (d : FrameDecoder) (flags : Nat) (pos : Int), s.decoder = some d →
    (flags = 0 → exec (.isSet flags pos) s = .next { s with response := .ok (.bool false) }) ∧
    (flags ≠ 0 → (pos < 0 ∨ (bitLength flags : Int) < pos) →
      exec (.isSet flags pos) s = .next
        { s with response := .err { kind := .outOfRange, info := some { pos := pos, flags := flags, bitlen := bitLength flags } } }) ∧
    (flags ≠ 0 → 0 ≤ pos → pos ≤ (bitLength flags : Int) →
      exec (.isSet flags pos) s = .next { s with response := .ok (.bool (decide (flags / 2 ^ pos.toNat % 2 = 1))) })

/-- `bit_length` is the 1-based position of the highest set bit (R91; the 1-based reading is the spec's decision D19). -/
def Obligations.BitLengthIsHighestSetBitPosition : Prop :=
  bitLength 0 = 0 ∧
  ∀ v : Nat, 0 < v →
    2 ^ (bitLength v - 1) ≤ v ∧ v < 2 ^ bitLength v ∧
    (∀ n : Nat, 2 ^ (n - 1) ≤ v → v < 2 ^ n → n = bitLength v) ∧
    v.testBit (bitLength v - 1) = true ∧ ∀ j, bitLength v ≤ j → v.testBit j = false

/-- The inspector's use inside VALUE never fails and reads bit 0 (R93, the spec's own inference from R90). -/
def Obligations.SignBitInspectionNeverFails : Prop :=
  ∀ b : Byte, bitIsSet b.toNat 0 = .ok (decide (b.toNat % 2 = 1))

/-! ### Construction, reset, idle -/

/-- NEW, whole (R100). The state after `ConfigError` has no instance, also when there was one before: log entry 6 (DEDUCED). -/
def Obligations.NewConstructsFreshOrConfigError : Prop :=
  (∀ p : Presentation, p.op = 0x9 → decode p = .ok (.new p.cfgFrameLength p.cfgHeader)) ∧
  ∀ (s : State) (frameLength : Int) (header : List Byte),
    (frameLength < 1 ∨ frameLength ≤ header.length →
      exec (.new frameLength header) s =
        .next { s with decoder := none, response := .err { kind := .configError, info := none } }) ∧
    (1 ≤ frameLength → (header.length : Int) < frameLength →
      exec (.new frameLength header) s = .next { s with
        decoder := some { spec := { frameLength := frameLength.toNat, header := header }
                          cursor := 0, partialBytes := [], completed := none }
        response := .ok .constructed })

/-- RESET gives the Fresh state and keeps `L`, `H` and the tables (R101; the operation is the spec's decision D10). -/
def Obligations.ResetReturnsToFresh : Prop :=
  (∀ p : Presentation, p.op = 0xA → decode p = .ok .reset) ∧
  ∀ (s : State) (d : FrameDecoder), s.decoder = some d →
    exec .reset s = .next { s with
      decoder := some { spec := d.spec, cursor := 0, partialBytes := [], completed := none }
      response := .ok .done }

/-- IDLE writes nothing (R102), and any number of steps without a call holds the whole state: there is no timeout (R110). -/
def Obligations.IdleHoldsStateForever : Prop :=
  (∀ p : Presentation, p.op = 0x0 → decode p = .ok .idle) ∧
  (∀ (s : State) (d : FrameDecoder), s.decoder = some d → exec .idle s = .next { s with response := .ok .done }) ∧
  ∀ (s : State) (d : FrameDecoder) (k : Nat), s.decoder = some d → s.pending = [] →
    Host.Core.run Sys2Proof.core (k + 1) s = .next { s with response := .ok .done }

/-- After power-up the instance is in the Fresh state of R34. Its `FrameSpec` and tables are OPEN (log entries 3 and 4): only the
validity of the former is stated. -/
def Obligations.PowerUpStateIsFresh : Prop :=
  ∃ d : FrameDecoder, State.reset.decoder = some d ∧ d.cursor = 0 ∧ d.partialBytes = [] ∧ d.fill = 0 ∧
    d.completed = none ∧ d.havePayload = false ∧ d.lastCompletedAt = none ∧
    1 ≤ d.frameLength ∧ d.headerLength < d.frameLength ∧
    d.phase = (if 0 < d.headerLength then Phase.headerSync else Phase.payloadFill)

/-- In a state without an instance only NEW has a meaning (R100; `93_implementation_defined.md` U15: `refuse`). -/
def Obligations.WithoutInstanceOnlyNewRuns : Prop :=
  ∀ (s : State) (i : Instr), s.decoder = none →
    (exec i s = .refused .noInstance ↔ ∀ (l : Int) (h : List Byte), i ≠ .new l h)

/-! ### FEED -/

/-- FEED arm 1, header match (R104). The last clause is the spec's own inference from R27. -/
def Obligations.FeedHeaderMatchAdvancesCursor : Prop :=
  ∀ (s : State) (d : FrameDecoder) (b : Byte) (now : Time), s.decoder = some d →
    d.cursor < d.headerLength → d.header[d.cursor]? = some b →
    ∃ d' : FrameDecoder,
      d' = { d with partialBytes := d.partialBytes ++ [b], cursor := d.cursor + 1 } ∧
      exec (.feed b now) s = .next { s with decoder := some d', response := .ok .done } ∧
      d'.completed = d.completed ∧
      (d'.cursor = d'.headerLength → d'.phase = .payloadFill) ∧
      (d.Inv → d'.fill = d'.cursor ∧ d'.cursor ≤ d'.headerLength ∧ d'.headerLength < d'.frameLength)

/-- FEED arm 2, header mismatch (R105): all progress and the byte itself are dropped, also when the byte equals `H[0]`; at
`cursor = 0` the state stays exactly as it was. The source calls this a limitation to preserve (D17). -/
def Obligations.FeedHeaderMismatchDropsAttempt : Prop :=
  ∀ (s : State) (d : FrameDecoder) (b : Byte) (now : Time), s.decoder = some d →
    d.cursor < d.headerLength → d.header[d.cursor]? ≠ some b →
    exec (.feed b now) s = .next { s with
      decoder := some { d with cursor := 0, partialBytes := [] }, response := .ok .done } ∧
    (d.Inv → d.cursor = 0 → exec (.feed b now) s = .next { s with response := .ok .done })

/-- FEED arm 3, a body byte that is not the last, whatever its value (R106). -/
def Obligations.FeedBodyByteAppends : Prop :=
  ∀ (s : State) (d : FrameDecoder) (b : Byte) (now : Time), s.decoder = some d →
    d.cursor = d.headerLength → d.fill + 1 < d.frameLength →
    exec (.feed b now) s = .next { s with
      decoder := some { d with partialBytes := d.partialBytes ++ [b] }, response := .ok .done }

/-- FEED arm 4, completion (R107): payload, presence, time, cursor and partial in one step, `now` stored as given
(the spec's decision D6, log entry 11). The last clause, that `fill + 1 > L` does not arise, is the spec's own inference from INV7. -/
def Obligations.FeedCompletionPublishesFrame : Prop :=
  ∀ (s : State) (d : FrameDecoder) (b : Byte) (now : Time), s.decoder = some d →
    d.cursor = d.headerLength → d.fill + 1 = d.frameLength →
    exec (.feed b now) s = .next { s with
      decoder := some { d with
        completed := some { payload := d.partialBytes ++ [b], completedAt := now }
        cursor := 0, partialBytes := [] }
      response := .ok .done } ∧
    (d.partialBytes ++ [b]).length = d.frameLength ∧
    ∀ e : FrameDecoder, e.Inv → e.cursor = e.headerLength → e.fill + 1 ≤ e.frameLength

/-- FEED is total and never fails; exactly one of the four arms applies and the next state meets the invariant again (R109). -/
def Obligations.FeedNeverFails : Prop :=
  (∀ p : Presentation, p.op = 0x1 → decode p = .ok (.feed p.argByte p.now)) ∧
  ∀ (s : State) (d : FrameDecoder) (b : Byte) (now : Time), s.decoder = some d →
    ∃ d' : FrameDecoder, exec (.feed b now) s = .next { s with decoder := some d', response := .ok .done } ∧
      d'.spec = d.spec ∧
      (d.Inv → d'.Inv ∧
        ∃! a : FeedArm, match a with
          | .headerMatch => d.cursor < d.headerLength ∧ d.header[d.cursor]? = some b
          | .headerMismatch => d.cursor < d.headerLength ∧ d.header[d.cursor]? ≠ some b
          | .bodyByte => d.cursor = d.headerLength ∧ d.fill + 1 < d.frameLength
          | .completion => d.cursor = d.headerLength ∧ d.fill + 1 = d.frameLength)

/-- What FEED leaves in the byte spaces, byte by byte: HEADER never changes; an accepted byte is stored at address `fill` of
PARTIAL and every other address reads as before; PAYLOAD changes only at a completion, where it reads as PARTIAL did with the
byte at address `fill` (R41 to R43, R50, R52). -/
def Obligations.FeedStoresOneByteAtFill : Prop :=
  ∀ (s : State) (d : FrameDecoder) (b : Byte) (now : Time), s.decoder = some d → d.Inv →
    ∃ d' : FrameDecoder, exec (.feed b now) s = .next { s with decoder := some d', response := .ok .done } ∧
      (∀ a, d'.readByte .header a = d.readByte .header a) ∧
      (d.feedArm b = .headerMatch ∨ d.feedArm b = .bodyByte →
        d'.readByte .partialSpace d.storeAddress = some b ∧
        ∀ a, a ≠ d.storeAddress → d'.readByte .partialSpace a = d.readByte .partialSpace a) ∧
      (d.feedArm b = .headerMismatch ∨ d.feedArm b = .completion → ∀ a, d'.readByte .partialSpace a = none) ∧
      (d.feedArm b ≠ .completion →
        (∀ a, d'.readByte .payload a = d.readByte .payload a) ∧ d'.havePayload = d.havePayload ∧
          d'.lastCompletedAt = d.lastCompletedAt) ∧
      (d.feedArm b = .completion →
        d'.readByte .payload d.storeAddress = some b ∧
        ∀ a, a ≠ d.storeAddress → d'.readByte .payload a = d.readByte .partialSpace a)

/-- Zero-length header (R108, derived): `cursor` stays 0, every byte is accepted, and from the Fresh state the stream is cut into
consecutive `L`-byte payloads. -/
def Obligations.ZeroLengthHeaderCutsStream : Prop :=
  ∀ (sp : FrameSpec) (fs : List (Byte × Time)), sp.Valid → sp.header = [] →
    ((FrameDecoder.fresh sp).feedAll fs).cursor = 0 ∧
    ((FrameDecoder.fresh sp).feedAll fs).partialBytes =
      (fs.map Prod.fst).drop (fs.length / sp.frameLength * sp.frameLength) ∧
    ((FrameDecoder.fresh sp).completionsOf fs).map Completion.payload =
      (List.range (fs.length / sp.frameLength)).map fun q =>
        ((fs.map Prod.fst).drop (q * sp.frameLength)).take sp.frameLength

/-! ### Runs of FEEDs -/

/-- Running presented FEEDs is the fold of FEED over their bytes, so feeding `fs ++ gs` is feeding `fs` and then `gs`, however the
transport grouped them (R116, derived). The calls stand in `pending`, the model's own field (log entry 1). -/
def Obligations.FedRunIsChunkingIndependentFold : Prop :=
  ∀ (s : State) (d : FrameDecoder) (fs gs : List (Byte × Time)) (rest : List Presentation),
    s.decoder = some d → s.pending = feedPresentations (fs ++ gs) ++ rest → fs ++ gs ≠ [] →
    Host.Core.run Sys2Proof.core (fs.length + gs.length) s =
      .next { s with decoder := some ((d.feedAll fs).feedAll gs), pending := rest, response := .ok .done }

/-- Clean frame (R112, derived): from a state with `cursor = 0` and `partial = []`, the `L` bytes of `H ++ body` complete on the
last and not before; in the header the cursor and the fill advance in lockstep. The calls stand in `pending`, the
model's own field (log entry 1). -/
def Obligations.CleanFrameCompletes : Prop :=
  ∀ (s : State) (d : FrameDecoder) (bs : List Byte) (ts : List Time) (tL : Time) (rest : List Presentation),
    s.decoder = some d → d.spec.Valid → d.cursor = 0 → d.partialBytes = [] →
    bs.length = d.frameLength → bs.take d.headerLength = d.header →
    ts.length = d.frameLength → ts.getLast? = some tL →
    s.pending = feedPresentations (bs.zip ts) ++ rest →
    Host.Core.run Sys2Proof.core d.frameLength s = .next { s with
      decoder := some { d with completed := some { payload := bs, completedAt := tL } }
      pending := rest, response := .ok .done } ∧
    ∀ k, k < d.frameLength → ∃ d' : FrameDecoder,
      Host.Core.run Sys2Proof.core k s = .next { s with
        decoder := some d', pending := feedPresentations ((bs.zip ts).drop k) ++ rest
        response := if k = 0 then s.response else .ok .done } ∧
      d'.completed = d.completed ∧ d'.partialBytes = bs.take k ∧ d'.fill = k ∧ d'.cursor = min k d.headerLength

/-- Harmless noise (R113, derived): between frames, bytes different from `H[0]` change nothing. -/
def Obligations.NoiseWithoutHeaderStartIsHarmless : Prop :=
  ∀ (d : FrameDecoder) (fs : List (Byte × Time)) (h0 : Byte), d.Inv → d.cursor = 0 → d.header[0]? = some h0 →
    (∀ f ∈ fs, f.1 ≠ h0) → d.feedAll fs = d ∧ d.completionsOf fs = []

/-- Noise that ends in a header prefix loses the next frame (R179, R176, derived): its first byte is dropped with the false
attempt, and the rest, free of `H[0]`, matches nothing. -/
def Obligations.FalseStartLosesNextFrame : Prop :=
  ∀ (d : FrameDecoder) (h0 : Byte) (t : Time) (fs : List (Byte × Time)), d.Inv → 0 < d.cursor →
    d.cursor < d.headerLength → d.header[0]? = some h0 → d.header[d.cursor]? ≠ some h0 → (∀ f ∈ fs, f.1 ≠ h0) →
    d.feedAll ((h0, t) :: fs) = { d with cursor := 0, partialBytes := [] } ∧ d.completionsOf ((h0, t) :: fs) = []

/-- Lock (R114, derived): once the header has matched, the next `L - fill` bytes complete the attempt whatever they are, and no
shorter run does. -/
def Obligations.LockedAttemptCompletes : Prop :=
  ∀ (d : FrameDecoder) (fs : List (Byte × Time)) (b : Byte) (t : Time), d.Inv → d.cursor = d.headerLength →
    fs.length + 1 = d.frameLength - d.fill →
    d.completionsOf fs = [] ∧
    d.completionsOf (fs ++ [(b, t)]) =
      [{ payload := d.partialBytes ++ fs.map Prod.fst ++ [b], completedAt := t }] ∧
    d.feedAll (fs ++ [(b, t)]) = { d with
      completed := some { payload := d.partialBytes ++ fs.map Prod.fst ++ [b], completedAt := t }
      cursor := 0, partialBytes := [] }

/-- Spacing (R115, derived): the bytes fed from the Fresh state are gaps and whole payloads in order, so every payload is `L`
consecutive bytes, no two share a byte, and `k` FEEDs complete at most `k / L` frames. -/
def Obligations.PayloadsAreDisjointStretchesOfTheStream : Prop :=
  ∀ (sp : FrameSpec) (fs : List (Byte × Time)), sp.Valid →
    (∀ c ∈ (FrameDecoder.fresh sp).completionsOf fs,
      c.payload.length = sp.frameLength ∧ c.payload.take sp.header.length = sp.header) ∧
    (∃ (gaps : List (List Byte)) (tail : List Byte),
      gaps.length = ((FrameDecoder.fresh sp).completionsOf fs).length ∧
      fs.map Prod.fst =
        interleave gaps (((FrameDecoder.fresh sp).completionsOf fs).map Completion.payload) ++ tail) ∧
    ((FrameDecoder.fresh sp).completionsOf fs).length ≤ fs.length / sp.frameLength

/-- The stored payload is the last one completed, or the old one when none was (R107, R110, R175): without a completion nothing
the accessors read changes. -/
def Obligations.LastPayloadIsLastCompletion : Prop :=
  ∀ (d : FrameDecoder) (fs : List (Byte × Time)),
    (d.feedAll fs).completed = ((d.completionsOf fs).getLast?).or d.completed

/-- "monotonically non-decreasing across completions", under the environment's premise on `now` (R25, R8, R153). -/
def Obligations.LastCompletedAtNeverDecreases : Prop :=
  ∀ (d : FrameDecoder) (fs gs : List (Byte × Time)) (t u : Time), d.TimesNonDecreasing (fs ++ gs) →
    (d.feedAll fs).lastCompletedAt = some t → (d.feedAll (fs ++ gs)).lastCompletedAt = some u → t ≤ u

/-! ### The accessors -/

/-- `require` (R120): on an absent payload, or one of a configuration too short for it, each of the four accessors answers
OutOfRange without information, before any byte is looked at. -/
def Obligations.AbsentOrUndersizedPayloadIsOutOfRange : Prop :=
  ∀ (s : State) (d : FrameDecoder) (i : Instr) (need : Nat), s.decoder = some d →
    (i, need) ∈ [(Instr.mode, 5), (Instr.decimalPlaces, 10), (Instr.units, 12), (Instr.value, 13)] →
    (d.completed = none ∨ d.frameLength < need) →
    exec i s = .next { s with response := .err { kind := .outOfRange, info := none } }

/-- MODE, whole (R122): the label of `payload[4]`, "Unknown" for a code not in the table; with a header of five bytes or more
the code is the constant `H[4]`. -/
def Obligations.ModeAnswersTableLabel : Prop :=
  (∀ p : Presentation, p.op = 0x3 → decode p = .ok .mode) ∧
  ∀ (s : State) (d : FrameDecoder), s.decoder = some d →
    ((d.completed = none ∨ d.frameLength < 5) →
      exec .mode s = .next { s with response := .err { kind := .outOfRange, info := none } }) ∧
    ∀ (c : Completion) (code : Byte), d.completed = some c → 5 ≤ d.frameLength → c.payload[4]? = some code →
      (∀ m, tableLookup s.tables.mode code = some m →
        exec .mode s = .next { s with response := .ok (.mode (.known m)) }) ∧
      (tableLookup s.tables.mode code = none →
        exec .mode s = .next { s with response := .ok (.mode .unknown) }) ∧
      (d.Inv → 5 ≤ d.headerLength → d.header[4]? = some code)

/-- DECIMAL_PLACES, whole (R123): `payload[9]` as it is. -/
def Obligations.DecimalPlacesAnswersByteNine : Prop :=
  (∀ p : Presentation, p.op = 0x4 → decode p = .ok .decimalPlaces) ∧
  ∀ (s : State) (d : FrameDecoder), s.decoder = some d →
    ((d.completed = none ∨ d.frameLength < 10) →
      exec .decimalPlaces s = .next { s with response := .err { kind := .outOfRange, info := none } }) ∧
    ∀ (c : Completion) (dp : Byte), d.completed = some c → 10 ≤ d.frameLength → c.payload[9]? = some dp →
      exec .decimalPlaces s = .next { s with response := .ok (.decimalPlaces dp) }

/-- VALUE, whole (R124): size, overload, blank, digits least significant first, sign; the pair denotes `sm / 10^dp`.
Size before value (D9) and the exact pair (D5) are the spec's decisions, log entry 11. -/
def Obligations.ValueAnswersSignedMagnitude : Prop :=
  (∀ p : Presentation, p.op = 0x5 → decode p = .ok .value) ∧
  (∀ (sm : Int) (dp : Byte), scaledValue sm dp = (sm : Rat) / (10 : Rat) ^ dp.toNat) ∧
  ∀ (s : State) (d : FrameDecoder), s.decoder = some d →
    ((d.completed = none ∨ d.frameLength < 13) →
      exec .value s = .next { s with response := .err { kind := .outOfRange, info := none } }) ∧
    ∀ (c : Completion) (p0 p1 p2 p3 p4 d0 d1 d2 d3 dp unit mult sign : Byte) (rest : List Byte),
      d.completed = some c → 13 ≤ d.frameLength →
      c.payload = [p0, p1, p2, p3, p4, d0, d1, d2, d3, dp, unit, mult, sign] ++ rest →
      (d0 = 0x0B ∨ d0 = 0x0F →
        exec .value s = .next { s with response := .err { kind := .overloadValue, info := none } }) ∧
      (d0 ≠ 0x0B → d0 ≠ 0x0F → d3 = 0x0F →
        exec .value s = .next { s with response := .ok (.value 0 dp) }) ∧
      (d0 ≠ 0x0B → d0 ≠ 0x0F → d3 ≠ 0x0F → sign.toNat % 2 = 0 →
        exec .value s = .next
          { s with response := .ok (.value (d0.toNat + 10 * d1.toNat + 100 * d2.toNat + 1000 * d3.toNat : Int) dp) }) ∧
      (d0 ≠ 0x0B → d0 ≠ 0x0F → d3 ≠ 0x0F → sign.toNat % 2 = 1 →
        exec .value s = .next
          { s with response := .ok (.value (-(d0.toNat + 10 * d1.toNat + 100 * d2.toNat + 1000 * d3.toNat : Int)) dp) })

/-- Arithmetic of VALUE (R125; the 20-bit form is the spec's decision D5): the magnitude is at most 283305, which is reached;
the 20-bit port loses nothing; the denoted rational times `10^dp` is the signed magnitude. -/
def Obligations.ValueArithmeticIsExact : Prop :=
  (∀ (s t : State) (sm : Int) (dp : Byte), exec .value s = .next t → t.response = .ok (.value sm dp) →
    -283305 ≤ sm ∧ sm ≤ 283305 ∧ (valSmPort sm).toInt = sm ∧
      scaledValue sm dp * (10 : Rat) ^ dp.toNat = (sm : Rat)) ∧
  (∃ s t : State, ∃ dp : Byte, exec .value s = .next t ∧ t.response = .ok (.value 283305 dp)) ∧
  ∀ (sm₁ sm₂ : Int) (dp₁ dp₂ : Byte),
    scaledValue sm₁ dp₁ = scaledValue sm₂ dp₂ ↔ sm₁ * 10 ^ dp₂.toNat = sm₂ * 10 ^ dp₁.toNat

/-- UNITS, whole (R126): prefix and unit label, the text their concatenation, or one error kind for a miss of either table.
Size before the codes is the spec's decision D9 (log entry 11). -/
def Obligations.UnitsAnswersPrefixAndLabel : Prop :=
  (∀ p : Presentation, p.op = 0x6 → decode p = .ok .units) ∧
  (∀ (p : SiPrefix) (u : UnitLabel), unitsText p u = prefixText p ++ unitText u) ∧
  ∀ (s : State) (d : FrameDecoder), s.decoder = some d →
    ((d.completed = none ∨ d.frameLength < 12) →
      exec .units s = .next { s with response := .err { kind := .outOfRange, info := none } }) ∧
    ∀ (c : Completion) (uc mc : Byte), d.completed = some c → 12 ≤ d.frameLength →
      c.payload[10]? = some uc → c.payload[11]? = some mc →
      (∀ u m, tableLookup s.tables.unit uc = some u → tableLookup s.tables.mult mc = some m →
        exec .units s = .next { s with response := .ok (.units m.siPrefix u) }) ∧
      (tableLookup s.tables.unit uc = none ∨ tableLookup s.tables.mult mc = none →
        exec .units s = .next { s with response := .err { kind := .unknownUnits, info := none } })

/-- RAW_PAYLOAD, whole (R127; OK with the empty sequence before a completion is the spec's decision D12). -/
def Obligations.RawPayloadAnswersWholeFrame : Prop :=
  (∀ p : Presentation, p.op = 0x7 → decode p = .ok .rawPayload) ∧
  ∀ (s : State) (d : FrameDecoder), s.decoder = some d →
    (∀ c, d.completed = some c → exec .rawPayload s = .next { s with response := .ok (.bytes c.payload) }) ∧
    (d.completed = none → exec .rawPayload s = .next { s with response := .ok (.bytes []) })

/-- HAS_NEW_PAYLOAD_SINCE, whole (R128; strictly later is the spec's decision D8). -/
def Obligations.HasNewPayloadSinceComparesTime : Prop :=
  (∀ p : Presentation, p.op = 0x8 → decode p = .ok (.hasNewPayloadSince p.argTs)) ∧
  ∀ (s : State) (d : FrameDecoder) (ts : Time), s.decoder = some d →
    (∀ c, d.completed = some c →
      exec (.hasNewPayloadSince ts) s = .next { s with response := .ok (.bool (decide (ts < c.completedAt))) }) ∧
    (d.completed = none → exec (.hasNewPayloadSince ts) s = .next { s with response := .ok (.bool false) })

/-- What answers in the Fresh state (R171, derived). -/
def Obligations.FreshStateAnswers : Prop :=
  ∀ (s : State) (sp : FrameSpec) (ts : Time), s.decoder = some (.fresh sp) →
    (∀ i ∈ [Instr.mode, Instr.decimalPlaces, Instr.value, Instr.units],
      exec i s = .next { s with response := .err { kind := .outOfRange, info := none } }) ∧
    exec .rawPayload s = .next { s with response := .ok (.bytes []) } ∧
    exec (.hasNewPayloadSince ts) s = .next { s with response := .ok (.bool false) } ∧
    (FrameDecoder.fresh sp).statusOutputs =
      { stCursor := 0, stFill := 0, stPartial := [], stHavePayload := false, stLastCompletedAt := none }

/-- Purity (R121): no accessor writes anything but its response, on success or failure; the answer depends on presence, the
payload, `L` and the tables only, and for HAS_NEW_PAYLOAD_SINCE on the stored time and its operand only. So an attempt in progress
is invisible (R31). -/
def Obligations.AccessorsSeeOnlyCompletedPayload : Prop :=
  ∀ (s s' : State) (d d' : FrameDecoder), s.decoder = some d → s'.decoder = some d' →
    (d.SameReading d' → s.tables = s'.tables →
      ∀ i ∈ [Instr.mode, Instr.decimalPlaces, Instr.value, Instr.units, Instr.rawPayload],
        ∃ r : Response, exec i s = .next { s with response := r } ∧ exec i s' = .next { s' with response := r }) ∧
    (d.lastCompletedAt = d'.lastCompletedAt → ∀ ts : Time,
      ∃ r : Response, exec (.hasNewPayloadSince ts) s = .next { s with response := r } ∧
        exec (.hasNewPayloadSince ts) s' = .next { s' with response := r })

/-- The multiplier does not scale the value, and the scale factor is never output (R130, R66). -/
def Obligations.MultiplierDoesNotScaleValue : Prop :=
  (∀ (s s' : State) (d d' : FrameDecoder) (c c' : Completion), s.decoder = some d → s'.decoder = some d' →
    d.completed = some c → d'.completed = some c' → d.frameLength = d'.frameLength →
    (∀ k, k ≠ 11 → c.payload[k]? = c'.payload[k]?) →
    ∃ r : Response, exec .value s = .next { s with response := r } ∧ exec .value s' = .next { s' with response := r }) ∧
  ∀ (s s' : State) (d : FrameDecoder), s.decoder = some d → s'.decoder = some d → s.tables.unit = s'.tables.unit →
    (∀ c, (tableLookup s.tables.mult c).map Multiplier.siPrefix = (tableLookup s'.tables.mult c).map Multiplier.siPrefix) →
    ∃ r : Response, exec .units s = .next { s with response := r } ∧ exec .units s' = .next { s' with response := r }

/-- A reading's parts are the answers of the accessors on the payload present, its raw magnitude `|sm|`, its sign the sign-flag
bit, and the two together give `sm` back (R129, derived). -/
def Obligations.ReadingIsTheAccessorsAnswers : Prop :=
  ∀ (s : State) (d : FrameDecoder), s.decoder = some d →
    exec .mode s = .next { s with response := (d.reading s.tables).mode } ∧
    exec .decimalPlaces s = .next { s with response := (d.reading s.tables).decimalPlaces } ∧
    exec .value s = .next { s with response := (d.reading s.tables).value } ∧
    exec .units s = .next { s with response := (d.reading s.tables).units } ∧
    (∀ sm dp, (d.reading s.tables).value = .ok (.value sm dp) → (d.reading s.tables).rawMagnitude = some sm.natAbs) ∧
    (∀ (c : Completion) (sign : Byte), d.completed = some c → c.payload[12]? = some sign →
      (d.reading s.tables).negative = some (decide (sign.toNat % 2 = 1))) ∧
    (∀ (sm : Int) (dp : Byte) (m : Nat) (neg : Bool), (d.reading s.tables).value = .ok (.value sm dp) →
      (d.reading s.tables).rawMagnitude = some m → (d.reading s.tables).negative = some neg →
      sm = if neg then -(m : Int) else (m : Int)) ∧
    (d.completed = none → (d.reading s.tables).rawMagnitude = none ∧ (d.reading s.tables).negative = none)

/-! ### Output codes -/

/-- Status 0 is success, 1 to 4 the four errors, 5 to 7 never (R73); `mode_id` 15, `unit_id` 10 to 15 and `prefix_id` 6, 7 are
never produced and the ids tell the labels apart (R74 to R76). The last three clauses are the tables of R74 to R76: which label
text has which number, from 0 up. The numbers are the spec's decisions D3 and D4. -/
def Obligations.OutputCodesAreInRangeAndDistinct : Prop :=
  (∀ r : Response, r.ports.status = r.status ∧ r.status.toNat ≤ 4 ∧ (r.status = 0 ↔ ∃ v, r = .ok v)) ∧
  (ErrorKind.configError.status = 1 ∧ ErrorKind.outOfRange.status = 2 ∧ ErrorKind.overloadValue.status = 3 ∧
    ErrorKind.unknownUnits.status = 4) ∧
  (∀ l l' : ModeLabel, (modeId l).toNat < 15 ∧ (modeId l = modeId l' → l = l')) ∧
  (∀ u u' : UnitLabel, (unitId u).toNat < 10 ∧ (unitId u = unitId u' → u = u')) ∧
  (∀ p p' : SiPrefix, (prefixId p).toNat < 6 ∧ (prefixId p = prefixId p' → p = p')) ∧
  (∀ l : ModeLabel,
    ["Unknown", "VAC", "VDC", "Resistance", "Capacitance", "Temperature", "Amps-DC", "mAmps-DC", "uAmps-DC", "Amps-AC",
      "mAmps-AC", "uAmps-AC", "Diode-test", "Frequency", "Continuity"][(modeId l).toNat]? = some (modeText l) ∧
    (l = .unknown ↔ modeId l = 0)) ∧
  (∀ u : UnitLabel,
    ["V", "A", "Ohms", "Hz", "F", "Ohms-continuity", "V-diode-test", "Deg-C", "Deg-F", "%"][(unitId u).toNat]? =
      some (unitText u)) ∧
  ∀ p : SiPrefix, ["", "k", "M", "n", "u", "m"][(prefixId p).toNat]? = some (prefixText p)

/-- The text of UNITS determines the pair of prefix and unit (R76, the spec's own inference). -/
def Obligations.UnitsTextDeterminesPair : Prop :=
  ∀ (p p' : SiPrefix) (u u' : UnitLabel), unitsText p u = unitsText p' u' → p = p' ∧ u = u'

/-! ### Whole-machine rules -/

/-- Reset meets the invariant. -/
def Obligations.ResetMeetsInvariant : Prop := State.reset.Inv

/-- Every step keeps INV1 to INV7 (R27, the spec's own inference), from every state that meets them. -/
def Obligations.StepKeepsInvariant : Prop :=
  ∀ s t : State, s.Inv → step s = .next t → t.Inv

/-- Every step of every state leaves a response within the ranges of the result ports (R73 to R78, R147). -/
def Obligations.StepAnswersInRange : Prop :=
  ∀ s t : State, step s = .next t → t.response.InRange

/-- Who writes what (R33): the eight read-only operations write nothing but their response, whether they succeed or fail; FEED
writes `cursor` and `partial`, and the payload and its time only when it completes a frame; a successful NEW and RESET write
everything to Fresh. That no operation writes the caller's list (log entry 1) or the tables (log entries 4 and 13) is the model's
own, and RESET is the spec's decision D10. What FEED does to `cursor` and `partial` is in the statements of its arms. -/
def Obligations.OperationsWriteOnlyWhatTheyOwn : Prop :=
  ∀ (i : Instr) (s t : State), exec i s = .next t →
    t.tables = s.tables ∧ t.pending = s.pending ∧
    (i.readOnly = true → t = { s with response := t.response }) ∧
    (∀ b now, i = .feed b now → ∃ d d' : FrameDecoder, s.decoder = some d ∧ t.decoder = some d' ∧ d'.spec = d.spec ∧
      (d.feedArm b ≠ .completion → d'.completed = d.completed) ∧
      (d.feedArm b = .completion →
        d'.completed = some { payload := d.partialBytes ++ [b], completedAt := now })) ∧
    (i = .reset → ∃ d : FrameDecoder, s.decoder = some d ∧ t.decoder = some (.fresh d.spec)) ∧
    (∀ l h, i = .new l h → t.response = .ok .constructed →
      t.decoder = some (.fresh { frameLength := l.toNat, header := h }))

/-- `FrameSpec` and the tables are immutable but for NEW (R21, R57): no operation on a byte of the stream alters `L`, `H` or a
table. -/
def Obligations.ConfigurationIsImmutable : Prop :=
  ∀ (s t : State) (d : FrameDecoder), s.decoder = some d → step s = .next t →
    (∀ i, decode s.takePresentation.1 = .ok i → ∀ l h, i ≠ .new l h) →
    t.tables = s.tables ∧ ∃ d' : FrameDecoder, t.decoder = some d' ∧ d'.spec = d.spec

/-- Each operation answers only with the error kinds of R141 to R145, and only IS_SET's error carries information (R147). -/
def Obligations.ErrorKindsPerOperation : Prop :=
  ∀ (i : Instr) (s t : State) (e : Err), exec i s = .next t → t.response = .err e →
    i.mayRaise e.kind = true ∧ (e.info.isSome = true ↔ ∃ f p, i = .isSet f p)

/-- An error changes no state (R148): the framing state, the payload and its time are as before. NEW is left out: after
`ConfigError` there is no instance (R149, log entry 6). -/
def Obligations.ErrorsChangeNoState : Prop :=
  ∀ (i : Instr) (s t : State) (e : Err), exec i s = .next t → t.response = .err e → (∀ l h, i ≠ .new l h) →
    t = { s with response := .err e }

/-- The counters never leave the widths of R29 (derived). -/
def Obligations.CountersFitTheirWidths : Prop :=
  ∀ d : FrameDecoder, d.Inv → d.cursor < 2 ^ d.spec.cursorWidth ∧ d.fill < 2 ^ d.spec.fillWidth

/-- With a table of the shape R66 states, the two codes that mean milli give the same answer (R126). -/
def Obligations.TwoMilliCodesAnswerAlike : Prop :=
  ∀ T : Tables, MultTableShape T.mult →
    ∃ m₁ m₂ : Byte, m₁ ≠ m₂ ∧
      ∀ (s s' : State) (d d' : FrameDecoder) (c c' : Completion) (uc : Byte) (u : UnitLabel),
        s.tables = T → s'.tables = T → s.decoder = some d → s'.decoder = some d' →
        d.completed = some c → d'.completed = some c' → 12 ≤ d.frameLength → 12 ≤ d'.frameLength →
        c.payload[10]? = some uc → c'.payload[10]? = some uc → tableLookup T.unit uc = some u →
        c.payload[11]? = some m₁ → c'.payload[11]? = some m₂ →
        exec .units s = .next { s with response := .ok (.units .milli u) } ∧
        exec .units s' = .next { s' with response := .ok (.units .milli u) }

/-- What each operation drives on its result ports (R73 to R78; the ports and numbers are the spec's decisions D2 to D5): the
ports of its own result on success, nothing but the status on an error, and for IS_SET's error the operands as presented with the
bit length. `ResultPorts.silent n` is status `n` with no other port. NEW drives status 1 exactly when no instance exists after it
(R100); that this holds also where an instance existed before is log entry 6 (DEDUCED). -/
def Obligations.ResultPortsCarryTheAnswer : Prop :=
  ∀ s t : State,
    (∀ flags pos, exec (.isSet flags pos) s = .next t →
      (∃ b, t.response = .ok (.bool b) ∧ t.response.ports = { ResultPorts.silent 0 with resBool := some b }) ∨
      (∃ e, t.response = .err e ∧ t.response.ports = { ResultPorts.silent 2 with
        errPos := some pos, errFlags := some flags, errBitlen := some (bitLength flags) })) ∧
    (exec .mode s = .next t →
      (∃ l, t.response = .ok (.mode l) ∧ t.response.ports = { ResultPorts.silent 0 with modeId := some (modeId l) }) ∨
      (∃ e, t.response = .err e ∧ t.response.ports = .silent 2)) ∧
    (exec .decimalPlaces s = .next t →
      (∃ dp, t.response = .ok (.decimalPlaces dp) ∧ t.response.ports = { ResultPorts.silent 0 with resDp := some dp }) ∨
      (∃ e, t.response = .err e ∧ t.response.ports = .silent 2)) ∧
    (exec .value s = .next t →
      (∃ (sm : Int) (dp : Byte) (port : BitVec 20), t.response = .ok (.value sm dp) ∧ port.toInt = sm ∧
        t.response.ports = { ResultPorts.silent 0 with valSm := some port, valDp := some dp }) ∨
      (∃ e, t.response = .err e ∧ t.response.ports = .silent (if e.kind = .overloadValue then 3 else 2))) ∧
    (exec .units s = .next t →
      (∃ p u, t.response = .ok (.units p u) ∧ t.response.ports =
        { ResultPorts.silent 0 with prefixId := some (prefixId p), unitId := some (unitId u) }) ∨
      (∃ e, t.response = .err e ∧ t.response.ports = .silent (if e.kind = .unknownUnits then 4 else 2))) ∧
    (exec .rawPayload s = .next t →
      ∃ bs, t.response = .ok (.bytes bs) ∧
        t.response.ports = { ResultPorts.silent 0 with resLen := some bs.length, resBytes := some bs } ∧
        ∀ d, s.decoder = some d → d.Inv → bs.length = if d.havePayload then d.frameLength else 0) ∧
    (∀ ts, exec (.hasNewPayloadSince ts) s = .next t →
      ∃ b, t.response = .ok (.bool b) ∧ t.response.ports = { ResultPorts.silent 0 with resBool := some b }) ∧
    (∀ i : Instr, i = .idle ∨ i = .reset ∨ (∃ b now, i = .feed b now) → exec i s = .next t →
      t.response.ports = .silent 0) ∧
    (∀ l h, exec (.new l h) s = .next t →
      t.response.ports = .silent (if t.decoder = none then 1 else 0))
end

