-- ==== Sys2Proof/Laws/Decode.lean ====
section
/-! SUPPORT. The decoder on the presentation of each operation, and what ports of a width keep. -/
namespace Sys2Proof

theorem decode_drive (i : Instr) : decode (drive i) = .ok i := by
  cases i <;> rfl

@[simp] theorem Presentation.usedPorts_op (p : Presentation) : p.usedPorts.op = p.op := by
  unfold Presentation.usedPorts
  split <;> rfl

/-- The ports an operation uses are the ones its operands came from. -/
theorem Presentation.usedPorts_of_decode {p : Presentation} {i : Instr} (h : decode p = .ok i) : p.usedPorts = drive i := by
  obtain ⟨op, argByte, now, argFlags, argPos, argTs, frameLength, header⟩ := p
  have hop : ∀ k : Nat, op.toNat = k → op = BitVec.ofNat 4 k := fun k hk => by rw [← hk]; simp
  unfold decode at h
  split at h <;> rename_i ho <;> cases h <;> have ho' := hop _ ho <;> subst ho' <;> rfl

/-- Port widths never change the op code. -/
@[simp] theorem Presentation.sample_op (W : PortWidths) (p : Presentation) : (p.sample W).op = p.op := rfl
@[simp] theorem Presentation.sample_argByte (W : PortWidths) (p : Presentation) : (p.sample W).argByte = p.argByte := rfl
@[simp] theorem Presentation.sample_now (W : PortWidths) (p : Presentation) : (p.sample W).now = p.now % 2 ^ W.tsW := rfl
@[simp] theorem Presentation.sample_argFlags (W : PortWidths) (p : Presentation) :
    (p.sample W).argFlags = p.argFlags % 2 ^ W.flagsW := rfl
@[simp] theorem Presentation.sample_argPos (W : PortWidths) (p : Presentation) :
    (p.sample W).argPos = p.argPos % 2 ^ W.posW := rfl
@[simp] theorem Presentation.sample_argTs (W : PortWidths) (p : Presentation) : (p.sample W).argTs = p.argTs % 2 ^ W.tsW := rfl
@[simp] theorem Presentation.sample_cfgFrameLength (W : PortWidths) (p : Presentation) :
    (p.sample W).cfgFrameLength = p.cfgFrameLength := rfl
@[simp] theorem Presentation.sample_cfgHeader (W : PortWidths) (p : Presentation) :
    (p.sample W).cfgHeader = p.cfgHeader := rfl

/-- What it is for a presentation to fit: each port value is below its width. -/
theorem Presentation.fits_iff (W : PortWidths) (p : Presentation) :
    p.fits W = true ↔ p.now < 2 ^ W.tsW ∧ p.argFlags < 2 ^ W.flagsW ∧ (0 ≤ p.argPos ∧ p.argPos < 2 ^ W.posW) ∧
      p.argTs < 2 ^ W.tsW := by
  have hp : ∀ n : Nat, 0 < 2 ^ n := fun n => Nat.two_pow_pos n
  have hz : (0 : Int) < 2 ^ W.posW := by positivity
  have hn : ∀ a n : Nat, a % 2 ^ n = a ↔ a < 2 ^ n := fun a n =>
    ⟨fun h => h ▸ Nat.mod_lt a (hp n), Nat.mod_eq_of_lt⟩
  have hi : p.argPos % 2 ^ W.posW = p.argPos ↔ 0 ≤ p.argPos ∧ p.argPos < 2 ^ W.posW :=
    ⟨fun h => h ▸ ⟨Int.emod_nonneg _ hz.ne', Int.emod_lt_of_pos _ hz⟩, fun h => Int.emod_eq_of_lt h.1 h.2⟩
  cases p
  simp_all [Presentation.fits, Presentation.sample]

end Sys2Proof
end

