-- ==== Sys2Proof/Laws/State.lean ====
section
/-! SUPPORT. One lemma per field and update of the state and the decoder, all true by rfl. -/
namespace Sys2Proof.Machine

@[simp] theorem State.respond_decoder (s : State) (r : Response) : (s.respond r).decoder = s.decoder := rfl
@[simp] theorem State.respond_tables (s : State) (r : Response) : (s.respond r).tables = s.tables := rfl
@[simp] theorem State.respond_pending (s : State) (r : Response) : (s.respond r).pending = s.pending := rfl
@[simp] theorem State.respond_response (s : State) (r : Response) : (s.respond r).response = r := rfl

@[simp] theorem State.raise_decoder (s : State) (e : Err) : (s.raise e).decoder = s.decoder := rfl
@[simp] theorem State.raise_tables (s : State) (e : Err) : (s.raise e).tables = s.tables := rfl
@[simp] theorem State.raise_pending (s : State) (e : Err) : (s.raise e).pending = s.pending := rfl
@[simp] theorem State.raise_response (s : State) (e : Err) : (s.raise e).response = .err e := rfl

@[simp] theorem FrameDecoder.fresh_spec (sp : FrameSpec) : (FrameDecoder.fresh sp).spec = sp := rfl
@[simp] theorem FrameDecoder.fresh_cursor (sp : FrameSpec) : (FrameDecoder.fresh sp).cursor = 0 := rfl
@[simp] theorem FrameDecoder.fresh_partialBytes (sp : FrameSpec) : (FrameDecoder.fresh sp).partialBytes = [] := rfl
@[simp] theorem FrameDecoder.fresh_completed (sp : FrameSpec) : (FrameDecoder.fresh sp).completed = none := rfl

section Decoder
variable (d : FrameDecoder) (b : Byte) (now : Time)

@[simp] theorem FrameDecoder.matchHeader_spec : (d.matchHeader b).spec = d.spec := rfl
@[simp] theorem FrameDecoder.matchHeader_cursor : (d.matchHeader b).cursor = d.cursor + 1 := rfl
@[simp] theorem FrameDecoder.matchHeader_partialBytes : (d.matchHeader b).partialBytes = d.partialBytes ++ [b] := rfl
@[simp] theorem FrameDecoder.matchHeader_completed : (d.matchHeader b).completed = d.completed := rfl

@[simp] theorem FrameDecoder.dropAttempt_spec : d.dropAttempt.spec = d.spec := rfl
@[simp] theorem FrameDecoder.dropAttempt_cursor : d.dropAttempt.cursor = 0 := rfl
@[simp] theorem FrameDecoder.dropAttempt_partialBytes : d.dropAttempt.partialBytes = [] := rfl
@[simp] theorem FrameDecoder.dropAttempt_completed : d.dropAttempt.completed = d.completed := rfl

@[simp] theorem FrameDecoder.appendBody_spec : (d.appendBody b).spec = d.spec := rfl
@[simp] theorem FrameDecoder.appendBody_cursor : (d.appendBody b).cursor = d.cursor := rfl
@[simp] theorem FrameDecoder.appendBody_partialBytes : (d.appendBody b).partialBytes = d.partialBytes ++ [b] := rfl
@[simp] theorem FrameDecoder.appendBody_completed : (d.appendBody b).completed = d.completed := rfl

@[simp] theorem FrameDecoder.complete_spec : (d.complete b now).spec = d.spec := rfl
@[simp] theorem FrameDecoder.complete_cursor : (d.complete b now).cursor = 0 := rfl
@[simp] theorem FrameDecoder.complete_partialBytes : (d.complete b now).partialBytes = [] := rfl
@[simp] theorem FrameDecoder.complete_completed :
    (d.complete b now).completed = some { payload := d.partialBytes ++ [b], completedAt := now } := rfl

end Decoder

section Fetch
variable (s : State) (nbits w : Nat)

@[simp] theorem State.withFetchWord_decoder : (s.withFetchWord nbits w).decoder = s.decoder := rfl
@[simp] theorem State.withFetchWord_tables : (s.withFetchWord nbits w).tables = s.tables := rfl
@[simp] theorem State.withFetchWord_response : (s.withFetchWord nbits w).response = s.response := rfl
@[simp] theorem State.withFetchWord_pending :
    (s.withFetchWord nbits w).pending = presentationOfWord nbits w :: s.pending := rfl

theorem State.takePresentation_of_pending {s : State} {p : Presentation} {rest : List Presentation}
    (h : s.pending = p :: rest) : s.takePresentation = (p, { s with pending := rest }) := by
  simp [State.takePresentation, h]

theorem State.takePresentation_of_idle {s : State} (h : s.pending = []) : s.takePresentation = (.ofOp 0x0, s) := by
  simp [State.takePresentation, h]

@[simp] theorem State.takePresentation_decoder : s.takePresentation.2.decoder = s.decoder := by
  unfold State.takePresentation; split <;> rfl

@[simp] theorem State.takePresentation_tables : s.takePresentation.2.tables = s.tables := by
  unfold State.takePresentation; split <;> rfl

end Fetch

end Sys2Proof.Machine
end

