-- ==== Sys2Proof/Laws/Ops.lean ====
section
/-! SUPPORT. One lemma per shared operation that says all it can do: running on the instance, answering, the four arms of FEED,
the runs of FEED. -/
namespace Sys2Proof.Machine

theorem State.withDecoder_some {s : State} {d : FrameDecoder} (h : s.decoder = some d) (f : FrameDecoder → State) :
    s.withDecoder f = .next (f d) := by
  simp [State.withDecoder, h]

theorem State.withDecoder_none {s : State} (h : s.decoder = none) (f : FrameDecoder → State) :
    s.withDecoder f = .refused .noInstance := by
  simp [State.withDecoder, h]

/-- A next state of an operation on the instance comes from the instance. -/
theorem State.withDecoder_next {s t : State} {f : FrameDecoder → State} (h : s.withDecoder f = .next t) :
    ∃ d, s.decoder = some d ∧ t = f d := by
  cases hd : s.decoder with
  | none => simp [State.withDecoder, hd] at h
  | some d => simp [State.withDecoder, hd] at h; exact ⟨d, rfl, h.symm⟩

/-- Answering writes the response and nothing else. -/
theorem State.answer_eq (s : State) (r : Except Err Result) :
    s.answer r = { s with response := Response.ofExcept r } := by
  cases r <;> rfl

@[simp] theorem State.answer_ok (s : State) (r : Result) : s.answer (.ok r) = s.respond (.ok r) := rfl
@[simp] theorem State.answer_error (s : State) (e : Err) : s.answer (.error e) = s.raise e := rfl

/-! ### The arms of FEED -/

section Arms
variable {d : FrameDecoder} {b : Byte}

theorem FrameDecoder.feedArm_headerMatch_iff :
    d.feedArm b = .headerMatch ↔ d.cursor < d.headerLength ∧ d.header[d.cursor]? = some b := by
  unfold FrameDecoder.feedArm
  split
  · split <;> simp_all [FrameDecoder.readByte, FrameDecoder.space]
  · split <;> simp_all

theorem FrameDecoder.feedArm_headerMismatch_iff :
    d.feedArm b = .headerMismatch ↔ d.cursor < d.headerLength ∧ d.header[d.cursor]? ≠ some b := by
  unfold FrameDecoder.feedArm
  split
  · split <;> simp_all [FrameDecoder.readByte, FrameDecoder.space]
  · split <;> simp_all

theorem FrameDecoder.feedArm_bodyByte_iff :
    d.feedArm b = .bodyByte ↔ d.headerLength ≤ d.cursor ∧ d.fill + 1 < d.frameLength := by
  unfold FrameDecoder.feedArm
  split
  · split <;> simp_all
  · split <;> simp_all

theorem FrameDecoder.feedArm_completion_iff :
    d.feedArm b = .completion ↔ d.headerLength ≤ d.cursor ∧ d.frameLength ≤ d.fill + 1 := by
  unfold FrameDecoder.feedArm
  split
  · split <;> simp_all
  · split <;> simp_all

variable (now : Time)

theorem FrameDecoder.feed_of_headerMatch (h : d.feedArm b = .headerMatch) : d.feed b now = d.matchHeader b := by
  simp [FrameDecoder.feed, h]

theorem FrameDecoder.feed_of_headerMismatch (h : d.feedArm b = .headerMismatch) : d.feed b now = d.dropAttempt := by
  simp [FrameDecoder.feed, h]

theorem FrameDecoder.feed_of_bodyByte (h : d.feedArm b = .bodyByte) : d.feed b now = d.appendBody b := by
  simp [FrameDecoder.feed, h]

theorem FrameDecoder.feed_of_completion (h : d.feedArm b = .completion) : d.feed b now = d.complete b now := by
  simp [FrameDecoder.feed, h]

/-- All that FEED can do, with what each arm knows. -/
theorem FrameDecoder.feed_cases (d : FrameDecoder) (b : Byte) (now : Time) :
    (d.feedArm b = .headerMatch ∧ d.cursor < d.headerLength ∧ d.header[d.cursor]? = some b ∧ d.feed b now = d.matchHeader b) ∨
    (d.feedArm b = .headerMismatch ∧ d.cursor < d.headerLength ∧ d.header[d.cursor]? ≠ some b ∧ d.feed b now = d.dropAttempt) ∨
    (d.feedArm b = .bodyByte ∧ d.headerLength ≤ d.cursor ∧ d.fill + 1 < d.frameLength ∧ d.feed b now = d.appendBody b) ∨
    (d.feedArm b = .completion ∧ d.headerLength ≤ d.cursor ∧ d.frameLength ≤ d.fill + 1 ∧ d.feed b now = d.complete b now) := by
  cases h : d.feedArm b with
  | headerMatch =>
    have := FrameDecoder.feedArm_headerMatch_iff.1 h
    exact .inl ⟨rfl, this.1, this.2, FrameDecoder.feed_of_headerMatch now h⟩
  | headerMismatch =>
    have := FrameDecoder.feedArm_headerMismatch_iff.1 h
    exact .inr (.inl ⟨rfl, this.1, this.2, FrameDecoder.feed_of_headerMismatch now h⟩)
  | bodyByte =>
    have := FrameDecoder.feedArm_bodyByte_iff.1 h
    exact .inr (.inr (.inl ⟨rfl, this.1, this.2, FrameDecoder.feed_of_bodyByte now h⟩))
  | completion =>
    have := FrameDecoder.feedArm_completion_iff.1 h
    exact .inr (.inr (.inr ⟨rfl, this.1, this.2, FrameDecoder.feed_of_completion now h⟩))

end Arms

/-- FEED never writes the configuration. -/
@[simp] theorem FrameDecoder.feed_spec (d : FrameDecoder) (b : Byte) (now : Time) : (d.feed b now).spec = d.spec := by
  rcases d.feed_cases b now with ⟨-, -, -, h⟩ | ⟨-, -, -, h⟩ | ⟨-, -, -, h⟩ | ⟨-, -, -, h⟩ <;> rw [h] <;> rfl

/-- Without a completion FEED leaves the last payload and its time. -/
theorem FrameDecoder.feed_completed_of_ne {d : FrameDecoder} {b : Byte} (now : Time) (h : d.feedArm b ≠ .completion) :
    (d.feed b now).completed = d.completed := by
  rcases d.feed_cases b now with ⟨-, -, -, e⟩ | ⟨-, -, -, e⟩ | ⟨-, -, -, e⟩ | ⟨e, -⟩
  · rw [e]; rfl
  · rw [e]; rfl
  · rw [e]; rfl
  · exact absurd e h

/-! ### Runs of FEED -/

@[simp] theorem FrameDecoder.feedAll_nil (d : FrameDecoder) : d.feedAll [] = d := rfl

@[simp] theorem FrameDecoder.feedAll_cons (d : FrameDecoder) (b : Byte) (t : Time) (fs : List (Byte × Time)) :
    d.feedAll ((b, t) :: fs) = (d.feed b t).feedAll fs := rfl

theorem FrameDecoder.feedAll_append (d : FrameDecoder) (fs gs : List (Byte × Time)) :
    d.feedAll (fs ++ gs) = (d.feedAll fs).feedAll gs := by
  induction fs generalizing d with
  | nil => rfl
  | cons f fs ih => exact ih _

@[simp] theorem FrameDecoder.feedAll_spec (d : FrameDecoder) (fs : List (Byte × Time)) : (d.feedAll fs).spec = d.spec := by
  induction fs generalizing d with
  | nil => rfl
  | cons f fs ih => rw [show d.feedAll (f :: fs) = (d.feed f.1 f.2).feedAll fs from rfl, ih, FrameDecoder.feed_spec]

@[simp] theorem FrameDecoder.completionsOf_nil (d : FrameDecoder) : d.completionsOf [] = [] := rfl

theorem FrameDecoder.completionsOf_cons_of_ne {d : FrameDecoder} {b : Byte} (t : Time) (fs : List (Byte × Time))
    (h : d.feedArm b ≠ .completion) : d.completionsOf ((b, t) :: fs) = (d.feed b t).completionsOf fs := by
  simp [FrameDecoder.completionsOf, h]

theorem FrameDecoder.completionsOf_cons_of_completion {d : FrameDecoder} {b : Byte} (t : Time) (fs : List (Byte × Time))
    (h : d.feedArm b = .completion) :
    d.completionsOf ((b, t) :: fs) =
      { payload := d.partialBytes ++ [b], completedAt := t } :: (d.feed b t).completionsOf fs := by
  simp [FrameDecoder.completionsOf, h]

theorem FrameDecoder.completionsOf_append (d : FrameDecoder) (fs gs : List (Byte × Time)) :
    d.completionsOf (fs ++ gs) = d.completionsOf fs ++ (d.feedAll fs).completionsOf gs := by
  induction fs generalizing d with
  | nil => rfl
  | cons f fs ih => simp [FrameDecoder.completionsOf, FrameDecoder.feedAll, ih]

/-! ### The invariant -/

/-- The Fresh state of a valid configuration meets the invariant. -/
theorem FrameDecoder.fresh_inv {sp : FrameSpec} (h : sp.Valid) : (FrameDecoder.fresh sp).Inv where
  valid := h
  inv1 := Nat.zero_le _
  inv2 := fun _ => rfl
  inv3 := fun h0 => ⟨by simp only [FrameDecoder.fresh_cursor] at h0; omega, Nat.zero_le _⟩
  inv4 := ⟨by simp [FrameDecoder.fill], fun i hi => by simp at hi⟩
  inv5 := fun c hc => by simp at hc
  inv6 := rfl
  inv7 := Nat.zero_le _

theorem FrameDecoder.inv6_always (d : FrameDecoder) : d.lastCompletedAt.isSome = d.havePayload := by
  simp [FrameDecoder.lastCompletedAt, FrameDecoder.havePayload]

/-- While the header is being matched, `partial` is the matched part of the header. -/
theorem FrameDecoder.Inv.partial_eq_take {d : FrameDecoder} (hi : d.Inv) :
    d.partialBytes.take d.cursor = d.header.take d.cursor := by
  apply List.ext_getElem?
  intro i
  by_cases hlt : i < d.cursor
  · simpa [List.getElem?_take, hlt] using hi.inv4.2 i hlt
  · simp [hlt]

/-- FEED keeps the invariant. -/
theorem FrameDecoder.Inv.feed {d : FrameDecoder} (hi : d.Inv) (b : Byte) (now : Time) : (d.feed b now).Inv := by
  have hv := hi.valid
  have h1 := hi.inv1
  have h2 := hi.inv2
  have h3 := hi.inv3
  have h4 := hi.inv4
  have h7 := hi.inv7
  have hpos := hv.positive
  have hlong := hv.longer
  rcases d.feed_cases b now with ⟨-, hc, hb, e⟩ | ⟨-, hc, hb, e⟩ | ⟨-, hc, hf, e⟩ | ⟨-, hc, hf, e⟩ <;> rw [e]
  · have hfill : d.partialBytes.length = d.cursor := h2 hc
    refine ⟨hv, ?_, ?_, ?_, ⟨?_, ?_⟩, hi.inv5, FrameDecoder.inv6_always _, ?_⟩
    · show d.cursor + 1 ≤ _; exact hc
    · intro _; simp [FrameDecoder.fill, hfill]
    · intro h
      simp only [FrameDecoder.fill, FrameDecoder.matchHeader_partialBytes, List.length_append, List.length_singleton,
        FrameDecoder.matchHeader_cursor, FrameDecoder.headerLength, FrameDecoder.matchHeader_spec,
        FrameDecoder.frameLength] at *
      omega
    · simp only [FrameDecoder.fill, FrameDecoder.matchHeader_partialBytes, List.length_append, List.length_singleton,
        FrameDecoder.matchHeader_cursor, FrameDecoder.headerLength, FrameDecoder.matchHeader_spec] at *
      omega
    · intro i hlt
      simp only [FrameDecoder.matchHeader_cursor] at hlt
      simp only [FrameDecoder.matchHeader_partialBytes, FrameDecoder.header, FrameDecoder.matchHeader_spec]
      by_cases hic : i < d.cursor
      · rw [List.getElem?_append_left (by omega)]; exact h4.2 i hic
      · have hieq : i = d.cursor := by omega
        subst hieq
        rw [List.getElem?_append_right (by omega), hfill]
        simpa using hb.symm
    · simp only [FrameDecoder.fill, FrameDecoder.matchHeader_partialBytes, List.length_append, List.length_singleton,
        FrameDecoder.headerLength, FrameDecoder.frameLength, FrameDecoder.matchHeader_spec] at *
      omega
  · refine ⟨hv, Nat.zero_le _, fun _ => rfl, ?_, ⟨by simp [FrameDecoder.fill], fun i hlt => by simp at hlt⟩, hi.inv5,
      FrameDecoder.inv6_always _, Nat.zero_le _⟩
    intro h
    simp only [FrameDecoder.dropAttempt_cursor, FrameDecoder.headerLength, FrameDecoder.dropAttempt_spec] at h hc
    omega
  · have hceq : d.cursor = d.headerLength := Nat.le_antisymm h1 hc
    refine ⟨hv, h1, ?_, ?_, ⟨?_, ?_⟩, hi.inv5, FrameDecoder.inv6_always _, ?_⟩
    · intro h; exact absurd h (Nat.not_lt.2 hc)
    · intro _
      have := h3 hceq
      simp only [FrameDecoder.fill, FrameDecoder.appendBody_partialBytes, List.length_append, List.length_singleton,
        FrameDecoder.headerLength, FrameDecoder.frameLength, FrameDecoder.appendBody_spec] at *
      omega
    · have := h3 hceq
      simp only [FrameDecoder.fill, FrameDecoder.appendBody_partialBytes, List.length_append, List.length_singleton,
        FrameDecoder.headerLength, FrameDecoder.appendBody_cursor, FrameDecoder.appendBody_spec] at *
      omega
    · intro i hlt
      simp only [FrameDecoder.appendBody_cursor] at hlt
      have := h3 hceq
      simp only [FrameDecoder.appendBody_partialBytes, FrameDecoder.header, FrameDecoder.appendBody_spec]
      rw [List.getElem?_append_left (by simp only [FrameDecoder.fill, FrameDecoder.headerLength] at *; omega)]
      exact h4.2 i hlt
    · simp only [FrameDecoder.fill, FrameDecoder.appendBody_partialBytes, List.length_append, List.length_singleton,
        FrameDecoder.frameLength, FrameDecoder.appendBody_spec] at *
      omega
  · have hceq : d.cursor = d.headerLength := Nat.le_antisymm h1 hc
    have hfe := h3 hceq
    refine ⟨hv, Nat.zero_le _, fun _ => rfl, ?_, ⟨by simp [FrameDecoder.fill], fun i hlt => by simp at hlt⟩, ?_,
      FrameDecoder.inv6_always _, Nat.zero_le _⟩
    · intro h
      refine ⟨?_, Nat.zero_le _⟩
      simp only [FrameDecoder.complete_cursor, FrameDecoder.headerLength, FrameDecoder.complete_spec] at h
      simp only [FrameDecoder.headerLength, FrameDecoder.complete_spec, ← h]
      exact Nat.zero_le _
    · intro c hcc
      simp only [FrameDecoder.complete_completed, Option.some.injEq] at hcc
      subst hcc
      refine ⟨?_, fun i hlt => ?_⟩
      · simp only [List.length_append, List.length_singleton, FrameDecoder.frameLength, FrameDecoder.complete_spec,
          FrameDecoder.fill] at *
        omega
      · simp only [FrameDecoder.headerLength, FrameDecoder.complete_spec, FrameDecoder.header, FrameDecoder.fill] at *
        rw [List.getElem?_append_left (by omega)]
        exact h4.2 i (by omega)

theorem FrameDecoder.Inv.feedAll {d : FrameDecoder} (hi : d.Inv) (fs : List (Byte × Time)) : (d.feedAll fs).Inv := by
  induction fs generalizing d with
  | nil => exact hi
  | cons f fs ih => exact ih (hi.feed f.1 f.2)

/-- Under the invariant the payload-filling arms know the exact cursor and fill of R106 and R107. -/
theorem FrameDecoder.Inv.feedArm_completion_iff {d : FrameDecoder} (hi : d.Inv) {b : Byte} :
    d.feedArm b = .completion ↔ d.cursor = d.headerLength ∧ d.fill + 1 = d.frameLength := by
  have h1 := hi.inv1
  have h7 := hi.inv7
  have hpos := hi.valid.positive
  rw [FrameDecoder.feedArm_completion_iff]
  simp only [FrameDecoder.headerLength, FrameDecoder.fill, FrameDecoder.frameLength] at *
  omega

theorem FrameDecoder.Inv.feedArm_bodyByte_iff {d : FrameDecoder} (hi : d.Inv) {b : Byte} :
    d.feedArm b = .bodyByte ↔ d.cursor = d.headerLength ∧ d.fill + 1 < d.frameLength := by
  have h1 := hi.inv1
  rw [FrameDecoder.feedArm_bodyByte_iff]
  simp only [FrameDecoder.headerLength, FrameDecoder.fill, FrameDecoder.frameLength] at *
  omega

end Sys2Proof.Machine
end

