-- ==== Sys2Proof/Laws/Operands.lean ====
section
/-! SUPPORT. The operand forms: bit length and bit test, digits, bounds checks, and one spec lemma per accessor. -/
namespace Sys2Proof.Machine

/-! ### BitFlagInspector -/

@[simp] theorem bitLength_zero : bitLength 0 = 0 := rfl

theorem bitLength_of_pos {v : Nat} (h : 0 < v) : bitLength v = Nat.log2 v + 1 := by
  simp [bitLength, Nat.pos_iff_ne_zero.1 h]

theorem lt_two_pow_bitLength (v : Nat) : v < 2 ^ bitLength v := by
  rcases Nat.eq_zero_or_pos v with rfl | h
  · simp
  · rw [bitLength_of_pos h]; exact Nat.lt_log2_self

theorem two_pow_le_of_bitLength {v : Nat} (h : 0 < v) : 2 ^ (bitLength v - 1) ≤ v := by
  rw [bitLength_of_pos h]; exact Nat.log2_self_le (Nat.pos_iff_ne_zero.1 h)

theorem bitIsSet_zero_flags (pos : Int) : bitIsSet 0 pos = .ok false := rfl

theorem bitIsSet_outOfRange {flags : Nat} {pos : Int} (h : flags ≠ 0) (hp : pos < 0 ∨ (bitLength flags : Int) < pos) :
    bitIsSet flags pos = .error (errBit { pos := pos, flags := flags, bitlen := bitLength flags }) := by
  rw [bitIsSet, if_neg h, if_pos (by simpa [gt_iff_lt] using hp)]

theorem bitIsSet_inRange {flags : Nat} {pos : Int} (h : flags ≠ 0) (h0 : 0 ≤ pos) (h1 : pos ≤ (bitLength flags : Int)) :
    bitIsSet flags pos = .ok (flags.testBit pos.toNat) := by
  rw [bitIsSet, if_neg h, if_neg (by omega)]

/-- Position 0 is never out of range (spec/40_bitflag.md R90 corner cases a and e). -/
theorem bitIsSet_pos_zero (flags : Nat) : bitIsSet flags 0 = .ok (flags.testBit 0) := by
  rcases Nat.eq_zero_or_pos flags with rfl | h
  · rfl
  · exact bitIsSet_inRange (Nat.pos_iff_ne_zero.1 h) le_rfl (by rw [bitLength_of_pos h]; omega)

/-- An error of the bit test carries its information. -/
theorem bitIsSet_error {flags : Nat} {pos : Int} {e : Err} (h : bitIsSet flags pos = .error e) :
    e = errBit { pos := pos, flags := flags, bitlen := bitLength flags } := by
  unfold bitIsSet at h
  split at h
  · cases h
  · split at h
    · exact (Except.error.inj h).symm
    · cases h

/-! ### Digits -/

theorem digitSum_le (d0 d1 d2 d3 : Byte) : digitSum d0 d1 d2 d3 ≤ 283305 := by
  have := d0.isLt; have := d1.isLt; have := d2.isLt; have := d3.isLt
  unfold digitSum; omega

theorem digitSum_cast (d0 d1 d2 d3 : Byte) :
    (digitSum d0 d1 d2 d3 : Int) = d0.toNat + 10 * d1.toNat + 100 * d2.toNat + 1000 * d3.toNat := by
  unfold digitSum; push_cast; ring

/-! ### Bounds -/

theorem FrameDecoder.require_error {d : FrameDecoder} {need : Nat} (h : d.completed = none ∨ d.frameLength < need) :
    d.require need = .error errPayload := by
  rw [FrameDecoder.require, if_pos]
  rcases h with h | h
  · exact .inl (by simp [FrameDecoder.havePayload, h])
  · exact .inr h

theorem FrameDecoder.require_ok {d : FrameDecoder} {need : Nat} {c : Completion} (h : d.completed = some c)
    (hl : need ≤ d.frameLength) : d.require need = .ok () := by
  rw [FrameDecoder.require, if_neg]
  simp [FrameDecoder.havePayload, h, hl]

theorem FrameDecoder.lastPayload_of_some {d : FrameDecoder} {c : Completion} (h : d.completed = some c) :
    d.lastPayload = c.payload := by
  simp [FrameDecoder.lastPayload, h]

theorem FrameDecoder.payloadByte_of_some {d : FrameDecoder} {c : Completion} {i : Nat} {b : Byte}
    (h : d.completed = some c) (hb : c.payload[i]? = some b) : d.payloadByte i = .ok b := by
  simp [FrameDecoder.payloadByte, FrameDecoder.readByte, FrameDecoder.space, FrameDecoder.lastPayload_of_some h, hb]

/-- The accessors read the payload through `lastPayload` and presence only. -/
theorem FrameDecoder.payloadByte_congr {d e : FrameDecoder} {i : Nat} (h : d.lastPayload[i]? = e.lastPayload[i]?) :
    d.payloadByte i = e.payloadByte i := by
  simp [FrameDecoder.payloadByte, FrameDecoder.readByte, FrameDecoder.space, h]

/-- The error of a bounds check is OutOfRange without information. -/
theorem FrameDecoder.require_error_eq {d : FrameDecoder} {need : Nat} {e : Err} (h : d.require need = .error e) :
    e = errPayload := by
  unfold FrameDecoder.require at h
  split at h
  · exact (Except.error.inj h).symm
  · cases h

theorem FrameDecoder.payloadByte_error_eq {d : FrameDecoder} {i : Nat} {e : Err} (h : d.payloadByte i = .error e) :
    e = errPayload := by
  unfold FrameDecoder.payloadByte at h
  split at h
  · cases h
  · exact (Except.error.inj h).symm

/-- Peel one check off an accessor that fails: the check failed, or it passed and the rest failed. -/
theorem except_bind_error {α β : Type} {x : Except Err α} {f : α → Except Err β} {e : Err} (h : (x >>= f) = .error e) :
    x = .error e ∨ ∃ a, x = .ok a ∧ f a = .error e := by
  cases x with
  | error e' => cases (show (Except.error e' : Except Err β) = .error e from h); exact .inl rfl
  | ok a => exact .inr ⟨a, rfl, h⟩

/-- Peel one check off an accessor that succeeds. -/
theorem except_bind_ok {α β : Type} {x : Except Err α} {f : α → Except Err β} {b : β} (h : (x >>= f) = .ok b) :
    ∃ a, x = .ok a ∧ f a = .ok b := by
  cases x with
  | error e' => cases h
  | ok a => exact ⟨a, rfl, h⟩

theorem except_ok_bind {α β : Type} (a : α) (f : α → Except Err β) : (Except.ok a >>= f) = f a := rfl

theorem except_error_bind {α β : Type} (e : Err) (f : α → Except Err β) : (Except.error e >>= f) = .error e := rfl

/-! ### One spec lemma per accessor -/

section Accessors
variable {d : FrameDecoder} {c : Completion}

theorem FrameDecoder.mode_outOfRange (T : Tables) (h : d.completed = none ∨ d.frameLength < 5) :
    d.mode T = .error errPayload := by
  rw [FrameDecoder.mode, FrameDecoder.require_error h]; rfl

theorem FrameDecoder.mode_ok (T : Tables) {code : Byte} (h : d.completed = some c) (hl : 5 ≤ d.frameLength)
    (hb : c.payload[offMode]? = some code) :
    d.mode T = .ok (.mode ((tableLookup T.mode code).elim .unknown .known)) := by
  rw [FrameDecoder.mode, FrameDecoder.require_ok h hl, FrameDecoder.payloadByte_of_some h hb]; rfl

theorem FrameDecoder.decimalPlaces_outOfRange (h : d.completed = none ∨ d.frameLength < 10) :
    d.decimalPlaces = .error errPayload := by
  rw [FrameDecoder.decimalPlaces, FrameDecoder.require_error h]; rfl

theorem FrameDecoder.decimalPlaces_ok {dp : Byte} (h : d.completed = some c) (hl : 10 ≤ d.frameLength)
    (hb : c.payload[offDecimalPlaces]? = some dp) : d.decimalPlaces = .ok (.decimalPlaces dp) := by
  rw [FrameDecoder.decimalPlaces, FrameDecoder.require_ok h hl, FrameDecoder.payloadByte_of_some h hb]; rfl

theorem FrameDecoder.units_outOfRange (T : Tables) (h : d.completed = none ∨ d.frameLength < 12) :
    d.units T = .error errPayload := by
  rw [FrameDecoder.units, FrameDecoder.require_error h]; rfl

theorem FrameDecoder.units_ok (T : Tables) {uc mc : Byte} (h : d.completed = some c) (hl : 12 ≤ d.frameLength)
    (hu : c.payload[offUnit]? = some uc) (hm : c.payload[offMult]? = some mc) :
    d.units T = (match tableLookup T.unit uc, tableLookup T.mult mc with
      | some u, some m => .ok (.units m.siPrefix u)
      | _, _ => .error errUnits) := by
  rw [FrameDecoder.units, FrameDecoder.require_ok h hl, FrameDecoder.payloadByte_of_some h hu,
    FrameDecoder.payloadByte_of_some h hm]
  rfl

theorem FrameDecoder.value_outOfRange (h : d.completed = none ∨ d.frameLength < 13) : d.value = .error errPayload := by
  rw [FrameDecoder.value, FrameDecoder.require_error h]; rfl

theorem FrameDecoder.value_overload {d0 : Byte} (h : d.completed = some c) (hl : 13 ≤ d.frameLength)
    (h0 : c.payload[offDigit0]? = some d0) (hov : d0 = 0x0B ∨ d0 = 0x0F) : d.value = .error errOverload := by
  rw [FrameDecoder.value, FrameDecoder.require_ok h hl, except_ok_bind, FrameDecoder.payloadByte_of_some h h0,
    except_ok_bind, if_pos hov]

theorem FrameDecoder.value_blank {d0 dp : Byte} (h : d.completed = some c) (hl : 13 ≤ d.frameLength)
    (h0 : c.payload[offDigit0]? = some d0) (hov : ¬ (d0 = 0x0B ∨ d0 = 0x0F)) (h3 : c.payload[offDigit3]? = some 0x0F)
    (hdp : c.payload[offDecimalPlaces]? = some dp) : d.value = .ok (.value 0 dp) := by
  rw [FrameDecoder.value, FrameDecoder.require_ok h hl, except_ok_bind, FrameDecoder.payloadByte_of_some h h0,
    except_ok_bind, if_neg hov, FrameDecoder.payloadByte_of_some h h3, except_ok_bind,
    FrameDecoder.payloadByte_of_some h hdp, except_ok_bind, if_pos rfl]

theorem FrameDecoder.value_digits {d0 d1 d2 d3 dp sign : Byte} (h : d.completed = some c) (hl : 13 ≤ d.frameLength)
    (h0 : c.payload[offDigit0]? = some d0) (hov : ¬ (d0 = 0x0B ∨ d0 = 0x0F)) (h1 : c.payload[offDigit1]? = some d1)
    (h2 : c.payload[offDigit2]? = some d2) (h3 : c.payload[offDigit3]? = some d3) (hbl : d3 ≠ 0x0F) (hdp : c.payload[offDecimalPlaces]? = some dp)
    (hs : c.payload[offSign]? = some sign) :
    d.value = .ok (.value (if sign.toNat.testBit 0 then -(digitSum d0 d1 d2 d3 : Int) else (digitSum d0 d1 d2 d3 : Int)) dp) := by
  rw [FrameDecoder.value, FrameDecoder.require_ok h hl, except_ok_bind, FrameDecoder.payloadByte_of_some h h0,
    except_ok_bind, if_neg hov, FrameDecoder.payloadByte_of_some h h3, except_ok_bind,
    FrameDecoder.payloadByte_of_some h hdp, except_ok_bind, if_neg hbl, FrameDecoder.payloadByte_of_some h h1,
    except_ok_bind, FrameDecoder.payloadByte_of_some h h2, except_ok_bind, FrameDecoder.payloadByte_of_some h hs,
    except_ok_bind, bitIsSet_pos_zero, except_ok_bind]

end Accessors

/-- What VALUE can answer: a magnitude of four digits under either sign, zero included (R124, R125). -/
theorem FrameDecoder.value_ok_range {d : FrameDecoder} {r : Result} (h : d.value = .ok r) :
    ∃ sm dp, r = .value sm dp ∧ -283305 ≤ sm ∧ sm ≤ 283305 := by
  unfold FrameDecoder.value at h
  obtain ⟨-, -, h⟩ := except_bind_ok h
  obtain ⟨d0, -, h⟩ := except_bind_ok h
  split at h
  · cases h
  obtain ⟨d3, -, h⟩ := except_bind_ok h
  obtain ⟨dp, -, h⟩ := except_bind_ok h
  split at h
  · cases h; exact ⟨0, dp, rfl, by omega, by omega⟩
  obtain ⟨d1, -, h⟩ := except_bind_ok h
  obtain ⟨d2, -, h⟩ := except_bind_ok h
  obtain ⟨fl, -, h⟩ := except_bind_ok h
  obtain ⟨neg, -, h⟩ := except_bind_ok h
  have hle := digitSum_le d0 d1 d2 d3
  cases h
  exact ⟨_, dp, rfl, by split <;> omega, by split <;> omega⟩

/-- The 20-bit port carries every magnitude VALUE answers (R77). -/
theorem valSmPort_toInt {sm : Int} (h0 : -283305 ≤ sm) (h1 : sm ≤ 283305) : (valSmPort sm).toInt = sm := by
  rw [valSmPort, BitVec.toInt_ofInt]
  simp only [Int.bmod]
  omega

/-- The sign VALUE applies is the sign-flag bit of the reading (R129); the blank value 0 has either sign. -/
theorem FrameDecoder.value_sign {d : FrameDecoder} {sm : Int} {dp : Byte} {neg : Bool} (h : d.value = .ok (.value sm dp))
    (hn : (d.readByte .payload offSign).map (fun b => b.getLsbD 0) = some neg) :
    sm = if neg then -(sm.natAbs : Int) else (sm.natAbs : Int) := by
  unfold FrameDecoder.value at h
  obtain ⟨-, -, h⟩ := except_bind_ok h
  obtain ⟨d0, -, h⟩ := except_bind_ok h
  split at h
  · cases h
  obtain ⟨d3, -, h⟩ := except_bind_ok h
  obtain ⟨dp, -, h⟩ := except_bind_ok h
  split at h
  · cases h; simp
  obtain ⟨d1, -, h⟩ := except_bind_ok h
  obtain ⟨d2, -, h⟩ := except_bind_ok h
  obtain ⟨flags, hfl, h⟩ := except_bind_ok h
  obtain ⟨neg', hng, h⟩ := except_bind_ok h
  rw [bitIsSet_pos_zero] at hng
  unfold FrameDecoder.payloadByte at hfl
  split at hfl
  · rename_i b hb
    cases hfl
    rw [hb] at hn
    have e : neg = neg' := (Option.some.inj hn).symm.trans (Except.ok.inj hng)
    subst e
    cases h
    cases neg <;> simp
  · cases hfl

/-- The errors VALUE can raise (R146). -/
theorem FrameDecoder.value_error {d : FrameDecoder} {e : Err} (h : d.value = .error e) :
    e = errPayload ∨ e = errOverload := by
  unfold FrameDecoder.value at h
  rcases except_bind_error h with h | ⟨-, -, h⟩
  · exact .inl (FrameDecoder.require_error_eq h)
  rcases except_bind_error h with h | ⟨d0, -, h⟩
  · exact .inl (FrameDecoder.payloadByte_error_eq h)
  split at h
  · exact .inr (Except.error.inj h).symm
  rcases except_bind_error h with h | ⟨d3, -, h⟩
  · exact .inl (FrameDecoder.payloadByte_error_eq h)
  rcases except_bind_error h with h | ⟨dp, -, h⟩
  · exact .inl (FrameDecoder.payloadByte_error_eq h)
  split at h
  · cases h
  rcases except_bind_error h with h | ⟨d1, -, h⟩
  · exact .inl (FrameDecoder.payloadByte_error_eq h)
  rcases except_bind_error h with h | ⟨d2, -, h⟩
  · exact .inl (FrameDecoder.payloadByte_error_eq h)
  rcases except_bind_error h with h | ⟨fl, -, h⟩
  · exact .inl (FrameDecoder.payloadByte_error_eq h)
  rcases except_bind_error h with h | ⟨neg, -, h⟩
  · rw [bitIsSet_pos_zero] at h; cases h
  · cases h

/-- The errors MODE and DECIMAL_PLACES can raise. -/
theorem FrameDecoder.mode_error {d : FrameDecoder} {T : Tables} {e : Err} (h : d.mode T = .error e) : e = errPayload := by
  unfold FrameDecoder.mode at h
  rcases except_bind_error h with h | ⟨-, -, h⟩
  · exact FrameDecoder.require_error_eq h
  rcases except_bind_error h with h | ⟨code, -, h⟩
  · exact FrameDecoder.payloadByte_error_eq h
  · cases h

theorem FrameDecoder.decimalPlaces_error {d : FrameDecoder} {e : Err} (h : d.decimalPlaces = .error e) : e = errPayload := by
  unfold FrameDecoder.decimalPlaces at h
  rcases except_bind_error h with h | ⟨-, -, h⟩
  · exact FrameDecoder.require_error_eq h
  rcases except_bind_error h with h | ⟨dp, -, h⟩
  · exact FrameDecoder.payloadByte_error_eq h
  · cases h

/-- The errors UNITS can raise (R146). -/
theorem FrameDecoder.units_error {d : FrameDecoder} {T : Tables} {e : Err} (h : d.units T = .error e) :
    e = errPayload ∨ e = errUnits := by
  unfold FrameDecoder.units at h
  rcases except_bind_error h with h | ⟨-, -, h⟩
  · exact .inl (FrameDecoder.require_error_eq h)
  rcases except_bind_error h with h | ⟨uc, -, h⟩
  · exact .inl (FrameDecoder.payloadByte_error_eq h)
  rcases except_bind_error h with h | ⟨mc, -, h⟩
  · exact .inl (FrameDecoder.payloadByte_error_eq h)
  split at h
  · cases h
  · exact .inr (Except.error.inj h).symm

/-- A successful accessor answers a result of its own kind. -/
theorem FrameDecoder.mode_ok_shape {d : FrameDecoder} {T : Tables} {r : Result} (h : d.mode T = .ok r) :
    ∃ l, r = .mode l := by
  unfold FrameDecoder.mode at h
  obtain ⟨-, -, h⟩ := except_bind_ok h
  obtain ⟨code, -, h⟩ := except_bind_ok h
  exact ⟨_, (Except.ok.inj h).symm⟩

theorem FrameDecoder.decimalPlaces_ok_shape {d : FrameDecoder} {r : Result} (h : d.decimalPlaces = .ok r) :
    ∃ dp, r = .decimalPlaces dp := by
  unfold FrameDecoder.decimalPlaces at h
  obtain ⟨-, -, h⟩ := except_bind_ok h
  obtain ⟨dp, -, h⟩ := except_bind_ok h
  exact ⟨_, (Except.ok.inj h).symm⟩

theorem FrameDecoder.units_ok_shape {d : FrameDecoder} {T : Tables} {r : Result} (h : d.units T = .ok r) :
    ∃ p u, r = .units p u := by
  unfold FrameDecoder.units at h
  obtain ⟨-, -, h⟩ := except_bind_ok h
  obtain ⟨uc, -, h⟩ := except_bind_ok h
  obtain ⟨mc, -, h⟩ := except_bind_ok h
  split at h
  · exact ⟨_, _, (Except.ok.inj h).symm⟩
  · cases h

/-- The accessors depend on presence, `L` and the payload bytes they read. -/
theorem FrameDecoder.require_congr {d e : FrameDecoder} (need : Nat) (hp : d.havePayload = e.havePayload)
    (hl : d.frameLength = e.frameLength) : d.require need = e.require need := by
  simp only [FrameDecoder.require, hp, hl]

theorem FrameDecoder.value_congr {d e : FrameDecoder} (hp : d.havePayload = e.havePayload)
    (hl : d.frameLength = e.frameLength) (hb : ∀ i, i ≠ 11 → d.lastPayload[i]? = e.lastPayload[i]?) :
    d.value = e.value := by
  have hx : ∀ i, i ≠ 11 → d.payloadByte i = e.payloadByte i := fun i hi => FrameDecoder.payloadByte_congr (hb i hi)
  unfold FrameDecoder.value
  rw [FrameDecoder.require_congr 13 hp hl, hx offDigit0 (by decide), hx offDigit1 (by decide), hx offDigit2 (by decide),
    hx offDigit3 (by decide), hx offDecimalPlaces (by decide), hx offSign (by decide)]

/-- Decoders with the same presence, payload and `L` give the same answers (spec/42_decode.md R121). -/
theorem FrameDecoder.SameReading.answers {d e : FrameDecoder} (h : d.SameReading e) (T : Tables) :
    d.mode T = e.mode T ∧ d.decimalPlaces = e.decimalPlaces ∧ d.value = e.value ∧ d.units T = e.units T ∧
      d.rawPayload = e.rawPayload := by
  obtain ⟨hp, hlp, hl⟩ := h
  have hx : ∀ i, d.payloadByte i = e.payloadByte i := fun i => FrameDecoder.payloadByte_congr (by rw [hlp])
  have hr : ∀ n, d.require n = e.require n := fun n => FrameDecoder.require_congr n hp hl
  refine ⟨?_, ?_, FrameDecoder.value_congr hp hl (fun i _ => by rw [hlp]), ?_, ?_⟩
  · simp only [FrameDecoder.mode, hr, hx]
  · simp only [FrameDecoder.decimalPlaces, hr, hx]
  · simp only [FrameDecoder.units, hr, hx]
  · simp only [FrameDecoder.rawPayload, hlp]

/-- HAS_NEW_PAYLOAD_SINCE through the stored time. -/
theorem FrameDecoder.hasNewPayloadSince_eq (d : FrameDecoder) (ts : Time) :
    d.hasNewPayloadSince ts = .ok (.bool (d.lastCompletedAt.elim false fun t => decide (ts < t))) := by
  unfold FrameDecoder.hasNewPayloadSince FrameDecoder.lastCompletedAt
  cases d.completed <;> rfl

end Sys2Proof.Machine
end

