-- ==== Sys2Proof/Laws/Exec.lean ====
section
/-! SUPPORT. One equation per operation on a state with an instance, the inversion of `exec`, and the steps of the caller's list. -/
namespace Sys2Proof.Machine

section Equations
variable {s : State} {d : FrameDecoder} (h : s.decoder = some d)
include h

theorem exec_idle_eq : exec .idle s = .next { s with response := .ok .done } := State.withDecoder_some h _

theorem exec_feed_eq (b : Byte) (now : Time) :
    exec (.feed b now) s = .next { s with decoder := some (d.feed b now), response := .ok .done } :=
  State.withDecoder_some h _

theorem exec_isSet_eq (flags : Nat) (pos : Int) :
    exec (.isSet flags pos) s = .next { s with response := .ofExcept ((bitIsSet flags pos).map .bool) } :=
  (State.withDecoder_some h _).trans (by rw [State.answer_eq])

theorem exec_mode_eq : exec .mode s = .next { s with response := .ofExcept (d.mode s.tables) } :=
  (State.withDecoder_some h _).trans (by rw [State.answer_eq])

theorem exec_decimalPlaces_eq : exec .decimalPlaces s = .next { s with response := .ofExcept d.decimalPlaces } :=
  (State.withDecoder_some h _).trans (by rw [State.answer_eq])

theorem exec_value_eq : exec .value s = .next { s with response := .ofExcept d.value } :=
  (State.withDecoder_some h _).trans (by rw [State.answer_eq])

theorem exec_units_eq : exec .units s = .next { s with response := .ofExcept (d.units s.tables) } :=
  (State.withDecoder_some h _).trans (by rw [State.answer_eq])

theorem exec_rawPayload_eq : exec .rawPayload s = .next { s with response := .ok (.bytes d.lastPayload) } :=
  State.withDecoder_some h _

theorem exec_hasNewPayloadSince_eq (ts : Time) :
    exec (.hasNewPayloadSince ts) s = .next { s with response := .ofExcept (d.hasNewPayloadSince ts) } :=
  (State.withDecoder_some h _).trans (by rw [State.answer_eq])

theorem exec_reset_eq : exec .reset s = .next { s with decoder := some (.fresh d.spec), response := .ok .done } :=
  State.withDecoder_some h _

end Equations

theorem frameSpecOk_iff (l : Int) (hd : List Byte) : frameSpecOk l hd = true ↔ 1 ≤ l ∧ (hd.length : Int) < l := by
  simp [frameSpecOk]

theorem exec_new_ok {l : Int} {hd : List Byte} (s : State) (h : frameSpecOk l hd = true) :
    exec (.new l hd) s = .next
      { s with decoder := some (.fresh { frameLength := l.toNat, header := hd }), response := .ok .constructed } := by
  show execNew l hd s = _
  rw [execNew, if_pos h]
  rfl

theorem exec_new_error {l : Int} {hd : List Byte} (s : State) (h : frameSpecOk l hd = false) :
    exec (.new l hd) s = .next { s with decoder := none, response := .err errConfig } := by
  show execNew l hd s = _
  rw [execNew, if_neg (by simp [h])]
  rfl

/-- Without an instance every operation but NEW is refused. -/
theorem exec_without_instance {s : State} (h : s.decoder = none) (i : Instr) (hi : ∀ l hd, i ≠ .new l hd) :
    exec i s = .refused .noInstance := by
  cases i with
  | new l hd => exact absurd rfl (hi l hd)
  | _ => exact State.withDecoder_none h _

/-- The response a read-only operation gives on a decoder. -/
def readOnlyAnswer (i : Instr) (d : FrameDecoder) (T : Tables) : Response :=
  match i with
  | .isSet flags pos => .ofExcept ((bitIsSet flags pos).map .bool)
  | .mode => .ofExcept (d.mode T)
  | .decimalPlaces => .ofExcept d.decimalPlaces
  | .value => .ofExcept d.value
  | .units => .ofExcept (d.units T)
  | .rawPayload => .ofExcept d.rawPayload
  | .hasNewPayloadSince ts => .ofExcept (d.hasNewPayloadSince ts)
  | _ => .ok .done

/-- A read-only operation writes its response and nothing else (spec/10_state.md R33). -/
theorem exec_readOnly {s : State} {d : FrameDecoder} (h : s.decoder = some d) {i : Instr} (hi : i.readOnly = true) :
    exec i s = .next { s with response := readOnlyAnswer i d s.tables } := by
  cases i with
  | feed b now => cases hi
  | new l hd => cases hi
  | reset => cases hi
  | idle => exact exec_idle_eq h
  | isSet flags pos => exact exec_isSet_eq h flags pos
  | mode => exact exec_mode_eq h
  | decimalPlaces => exact exec_decimalPlaces_eq h
  | value => exact exec_value_eq h
  | units => exact exec_units_eq h
  | rawPayload => exact exec_rawPayload_eq h
  | hasNewPayloadSince ts => exact exec_hasNewPayloadSince_eq h ts

/-- All that a next state of `exec` can be. -/
theorem exec_next_cases {i : Instr} {s t : State} (h : exec i s = .next t) :
    (∃ l hd, i = .new l hd ∧ frameSpecOk l hd = true ∧
      t = { s with decoder := some (.fresh { frameLength := l.toNat, header := hd }), response := .ok .constructed }) ∨
    (∃ l hd, i = .new l hd ∧ frameSpecOk l hd = false ∧ t = { s with decoder := none, response := .err errConfig }) ∨
    ∃ d, s.decoder = some d ∧
      ((∃ b now, i = .feed b now ∧ t = { s with decoder := some (d.feed b now), response := .ok .done }) ∨
       (i = .reset ∧ t = { s with decoder := some (.fresh d.spec), response := .ok .done }) ∨
       (i.readOnly = true ∧ t = { s with response := readOnlyAnswer i d s.tables })) := by
  by_cases hn : ∃ l hd, i = .new l hd
  · obtain ⟨l, hd, rfl⟩ := hn
    cases hok : frameSpecOk l hd with
    | true => rw [exec_new_ok s hok] at h; exact .inl ⟨l, hd, rfl, hok, (Host.Outcome.next.inj h).symm⟩
    | false => rw [exec_new_error s hok] at h; exact .inr (.inl ⟨l, hd, rfl, hok, (Host.Outcome.next.inj h).symm⟩)
  · have hi : ∀ l hd, i ≠ .new l hd := fun l hd he => hn ⟨l, hd, he⟩
    rcases Option.eq_none_or_eq_some s.decoder with hd | ⟨d, hd⟩
    · rw [exec_without_instance hd i hi] at h; cases h
    · refine .inr (.inr ⟨d, hd, ?_⟩)
      by_cases hro : i.readOnly = true
      · rw [exec_readOnly hd hro] at h
        exact .inr (.inr ⟨hro, (Host.Outcome.next.inj h).symm⟩)
      · cases i with
        | feed b now =>
          rw [exec_feed_eq hd] at h
          exact .inl ⟨b, now, rfl, (Host.Outcome.next.inj h).symm⟩
        | reset =>
          rw [exec_reset_eq hd] at h
          exact .inr (.inl ⟨rfl, (Host.Outcome.next.inj h).symm⟩)
        | new l hd' => exact absurd rfl (hi l hd')
        | _ => exact absurd rfl hro

theorem Response.ofExcept_ok {x : Except Err Result} {r : Result} (h : Response.ofExcept x = .ok r) : x = .ok r := by
  cases x with
  | ok v => exact congrArg _ (Response.ok.inj h)
  | error e => cases h

theorem Response.ofExcept_err {x : Except Err Result} {e : Err} (h : Response.ofExcept x = .err e) : x = .error e := by
  cases x with
  | ok v => cases h
  | error e' => exact congrArg _ (Response.err.inj h)

/-- Only VALUE answers a value. -/
theorem readOnlyAnswer_value {i : Instr} {d : FrameDecoder} {T : Tables} {sm : Int} {dp : Byte}
    (h : readOnlyAnswer i d T = .ok (.value sm dp)) : d.value = .ok (.value sm dp) := by
  cases i with
  | value => exact Response.ofExcept_ok h
  | isSet f p =>
    have := Response.ofExcept_ok h
    cases hb : bitIsSet f p <;> rw [hb] at this <;> cases this
  | mode => obtain ⟨l, e⟩ := FrameDecoder.mode_ok_shape (Response.ofExcept_ok h); cases e
  | decimalPlaces => obtain ⟨l, e⟩ := FrameDecoder.decimalPlaces_ok_shape (Response.ofExcept_ok h); cases e
  | units => obtain ⟨p, u, e⟩ := FrameDecoder.units_ok_shape (Response.ofExcept_ok h); cases e
  | _ => cases h

/-- The errors a read-only operation can answer with. -/
theorem readOnlyAnswer_error {i : Instr} {d : FrameDecoder} {T : Tables} {e : Err} (h : readOnlyAnswer i d T = .err e) :
    i.mayRaise e.kind = true ∧ (e.info.isSome = true ↔ ∃ f p, i = .isSet f p) := by
  cases i with
  | isSet f p =>
    have := Response.ofExcept_err h
    cases hb : bitIsSet f p with
    | ok b => rw [hb] at this; cases this
    | error e' =>
      rw [hb] at this
      cases this
      rw [bitIsSet_error hb]
      exact ⟨rfl, by simp [errBit]⟩
  | mode => rw [FrameDecoder.mode_error (Response.ofExcept_err h)]; exact ⟨rfl, by simp [errPayload]⟩
  | decimalPlaces => rw [FrameDecoder.decimalPlaces_error (Response.ofExcept_err h)]; exact ⟨rfl, by simp [errPayload]⟩
  | value =>
    rcases FrameDecoder.value_error (Response.ofExcept_err h) with rfl | rfl
    · exact ⟨rfl, by simp [errPayload]⟩
    · exact ⟨rfl, by simp [errOverload]⟩
  | units =>
    rcases FrameDecoder.units_error (Response.ofExcept_err h) with rfl | rfl
    · exact ⟨rfl, by simp [errPayload]⟩
    · exact ⟨rfl, by simp [errUnits]⟩
  | rawPayload => cases (show Response.ok _ = .err e from h)
  | hasNewPayloadSince ts => cases (show Response.ok _ = .err e from h)
  | _ => cases h

/-! ### Steps -/

theorem step_of_decode {s : State} {i : Instr} (h : decode s.takePresentation.1 = .ok i) :
    step s = exec i s.takePresentation.2 := by
  simp [step, h]

theorem step_of_pending {s : State} {p : Presentation} {rest : List Presentation} {i : Instr}
    (hp : s.pending = p :: rest) (h : decode p = .ok i) : step s = exec i { s with pending := rest } := by
  rw [step_of_decode (i := i)] <;> simp [State.takePresentation_of_pending hp, h]

/-- A next state of a step is a next state of the operation it decoded. -/
theorem step_next {s t : State} (h : step s = .next t) :
    ∃ i, decode s.takePresentation.1 = .ok i ∧ exec i s.takePresentation.2 = .next t := by
  unfold step at h
  split at h
  · exact ⟨_, ‹_›, h⟩
  · cases h

/-! ### Runs -/

@[simp] theorem run_zero (s : State) : Host.Core.run Sys2Proof.core 0 s = .next s := rfl

theorem run_succ_of_next {s t : State} (k : Nat) (h : step s = .next t) :
    Host.Core.run Sys2Proof.core (k + 1) s = Host.Core.run Sys2Proof.core k t := by
  have h' : Sys2Proof.core.step s = .next t := h
  simp only [Host.Core.run, h']

/-- A run of `j + k` steps whose first `j` reach a state goes on from there. -/
theorem run_add_of_next {s t : State} (j k : Nat) (h : Host.Core.run Sys2Proof.core j s = .next t) :
    Host.Core.run Sys2Proof.core (j + k) s = Host.Core.run Sys2Proof.core k t := by
  induction j generalizing s with
  | zero => rw [run_zero] at h; cases h; rw [Nat.zero_add]
  | succ j ih =>
    have e : j + 1 + k = (j + k) + 1 := by omega
    rw [e]
    simp only [Host.Core.run] at h ⊢
    cases hs : Sys2Proof.core.step s with
    | next u => rw [hs] at h; exact ih h
    | fault r => rw [hs] at h; cases h
    | refused r => rw [hs] at h; cases h

end Sys2Proof.Machine
end

