-- ==== Sys2Proof/Laws/PerInstr.lean ====
section
/-! SUPPORT. A per-operation statement about syntax: the ports an operation drives carry its own op code of
spec/30_encoding.md R70, and its word of the operation table names its row. -/
namespace Sys2Proof.Laws.OpCode

/-- The op code of spec/30_encoding.md R70 of each operation. -/
def code : Instr → BitVec 4
  | .idle => 0x0
  | .feed _ _ => 0x1
  | .isSet _ _ => 0x2
  | .mode => 0x3
  | .decimalPlaces => 0x4
  | .value => 0x5
  | .units => 0x6
  | .rawPayload => 0x7
  | .hasNewPayloadSince _ => 0x8
  | .new _ _ => 0x9
  | .reset => 0xA

/-- The encoder drives the op code of R70 at any port widths, and the table word of that code decodes to the row's operation. -/
def Statement (i : Instr) : Prop :=
  (∀ W, (encode W i).op = code i) ∧ (decodeTableWord 8 (code i).toNat).map Instr.mnemonic = some i.mnemonic

theorem idle : Statement .idle := ⟨fun _ => rfl, rfl⟩
theorem feed (b : Byte) (now : Time) : Statement (.feed b now) := ⟨fun _ => rfl, rfl⟩
theorem isSet (flags : Nat) (pos : Int) : Statement (.isSet flags pos) := ⟨fun _ => rfl, rfl⟩
theorem mode : Statement .mode := ⟨fun _ => rfl, rfl⟩
theorem decimalPlaces : Statement .decimalPlaces := ⟨fun _ => rfl, rfl⟩
theorem value : Statement .value := ⟨fun _ => rfl, rfl⟩
theorem units : Statement .units := ⟨fun _ => rfl, rfl⟩
theorem rawPayload : Statement .rawPayload := ⟨fun _ => rfl, rfl⟩
theorem hasNewPayloadSince (ts : Time) : Statement (.hasNewPayloadSince ts) := ⟨fun _ => rfl, rfl⟩
theorem new (frameLength : Int) (header : List Byte) : Statement (.new frameLength header) := ⟨fun _ => rfl, rfl⟩
theorem reset : Statement .reset := ⟨fun _ => rfl, rfl⟩

end Sys2Proof.Laws.OpCode
end

