-- ==== Sys2Proof/Tests/Slice0.lean ====
section
/-! SUPPORT. Tests. Expected results are those of spec/95_test_vectors.md (sections named at each test) or written out from the
rules; a `witness_` theorem shows a concrete state and operands that meet the hypotheses of the obligation it names. -/
namespace Sys2Proof.Tests

open Sys2Proof.Machine

/-! ### The fixtures of spec/95_test_vectors.md section 0 (test tables, not the meter's) -/

def modes : List Mode :=
  [.vac, .vdc, .resistance, .capacitance, .temperature, .ampsDC, .mAmpsDC, .uAmpsDC, .ampsAC, .mAmpsAC, .uAmpsAC, .diodeTest,
    .frequency, .continuity]

def unitLabels : List UnitLabel :=
  [.volt, .amp, .ohms, .hertz, .farad, .ohmsContinuity, .voltDiodeTest, .degC, .degF, .percent]

def multipliers : List Multiplier :=
  [⟨1, .empty⟩, ⟨1000, .kilo⟩, ⟨1000000, .mega⟩, ⟨1 / 1000000000, .nano⟩, ⟨1 / 1000000, .micro⟩, ⟨1 / 1000, .milli⟩,
    ⟨1 / 1000, .milli⟩]

/-- A table whose codes run upward from `base`. -/
def tableFrom {α : Type} (base : Nat) (xs : List α) : CodeTable α :=
  ⟨((List.range 256).map fun c => if base ≤ c then xs[c - base]? else none).toArray, by simp⟩

/-- TCFG. -/
def tcfg : Tables := { mode := tableFrom 0xA1 modes, unit := tableFrom 0xB0 unitLabels, mult := tableFrom 0xC0 multipliers }

/-- A decoder in a given state of an attempt. -/
def dec (L : Nat) (H : List Byte) (cursor : Nat) (part : List Byte) (done : Option Completion) : FrameDecoder :=
  { spec := { frameLength := L, header := H }, cursor := cursor, partialBytes := part, completed := done }

/-- A machine with a decoder, TCFG and no call waiting. -/
def st (d : FrameDecoder) : State := { decoder := some d, tables := tcfg, pending := [], response := .ok .done }

/-- The decoder that holds a payload of length `L` and no header. -/
def holding (payload : List Byte) : FrameDecoder := dec payload.length [] 0 [] (some ⟨payload, 14⟩)

/-- The response an operation gives, if it answers a next state. -/
def answer (i : Instr) (s : State) : Option Response :=
  match exec i s with
  | .next t => some t.response
  | _ => none

/-- The decoder an operation leaves, if it answers a next state. -/
def after (i : Instr) (s : State) : Option (Option FrameDecoder) :=
  match exec i s with
  | .next t => some t.decoder
  | _ => none

/-- The base payload `PB` with the bytes at offsets 4, 5 to 8, 9, 10, 11 and 12 given. -/
def pb (m d0 d1 d2 d3 dp u x sg : Byte) : List Byte := [0xA5, 0x5A, 0, 0, m, d0, d1, d2, d3, dp, u, x, sg, 0xEE]

def PB : List Byte := pb 0xA2 4 5 6 7 2 0xB0 0xC0 0

/-! ### Decoding, each word written out from spec/30_encoding.md R70 -/

theorem test_decode_table_words :
    decodeTableWord 8 0b0000 = some .idle ∧ decodeTableWord 8 0b0001 = some (.feed 0 0) ∧
    decodeTableWord 8 0b0010 = some (.isSet 0 0) ∧ decodeTableWord 8 0b0011 = some .mode ∧
    decodeTableWord 8 0b0100 = some .decimalPlaces ∧ decodeTableWord 8 0b0101 = some .value ∧
    decodeTableWord 8 0b0110 = some .units ∧ decodeTableWord 8 0b0111 = some .rawPayload ∧
    decodeTableWord 8 0b1000 = some (.hasNewPayloadSince 0) ∧ decodeTableWord 8 0b1001 = some (.new 0 []) ∧
    decodeTableWord 8 0b1010 = some .reset := by decide

theorem test_decode_reserved_words :
    (List.range 5).map (fun k => decodeTableWord 8 (0xB + k)) = [none, none, none, none, none] := by decide

/-- P1 step 1 and the other operand formats of R71, port by port. -/
theorem test_decode_operand_ports :
    decode { op := 0x1, argByte := 0x77, now := 6, argFlags := 9, argPos := 9, argTs := 9, cfgFrameLength := 9, cfgHeader := [9] }
      = .ok (.feed 0x77 6) ∧
    decode { op := 0x2, argByte := 9, now := 9, argFlags := 5, argPos := 4, argTs := 9, cfgFrameLength := 9, cfgHeader := [9] }
      = .ok (.isSet 5 4) ∧
    decode { op := 0x8, argByte := 9, now := 9, argFlags := 9, argPos := 9, argTs := 14, cfgFrameLength := 9, cfgHeader := [9] }
      = .ok (.hasNewPayloadSince 14) ∧
    decode { op := 0x9, argByte := 9, now := 9, argFlags := 9, argPos := 9, argTs := 9, cfgFrameLength := -5, cfgHeader := [0, 1] }
      = .ok (.new (-5) [0, 1]) := by decide

/-- The ports of R71 driven by the encoder. -/
theorem test_encode_ports :
    encode Config.defaultWidths (.feed 0x77 6) = { Presentation.ofOp 0x1 with argByte := 0x77, now := 6 } ∧
    encode Config.defaultWidths (.isSet 5 4) = { Presentation.ofOp 0x2 with argFlags := 5, argPos := 4 } := by decide

/-! ### Well-formedness: one ill-formed operation for each check -/

theorem test_illFormed_now : (Instr.feed 0 (2 ^ 64)).wellFormed Config.defaultWidths = false := by decide
theorem test_illFormed_flags : (Instr.isSet 256 0).wellFormed Config.defaultWidths = false := by decide
theorem test_illFormed_pos_wide : (Instr.isSet 1 256).wellFormed Config.defaultWidths = false := by decide
theorem test_illFormed_pos_negative : (Instr.isSet 1 (-1)).wellFormed Config.defaultWidths = false := by decide
theorem test_illFormed_ts : (Instr.hasNewPayloadSince (2 ^ 64)).wellFormed Config.defaultWidths = false := by decide

/-! ### Operations -/

/-- Section 2.1. -/
theorem test_isSet :
    bitIsSet 0 (-1) = .ok false ∧ bitIsSet 5 2 = .ok true ∧ bitIsSet 5 1 = .ok false ∧ bitIsSet 5 3 = .ok false ∧
    bitIsSet 0x80 7 = .ok true ∧ bitIsSet 1 2 = .error ⟨.outOfRange, some ⟨2, 1, 1⟩⟩ ∧
    bitIsSet 5 (-1) = .error ⟨.outOfRange, some ⟨-1, 5, 3⟩⟩ := by
  refine ⟨?_, ?_, ?_, ?_, ?_, ?_, ?_⟩ <;> rfl

theorem test_bitLength : [0, 1, 2, 3, 4, 5, 7, 8, 0x7F, 0x80, 0xFF, 0x100].map bitLength =
    [0, 1, 2, 2, 3, 3, 3, 4, 7, 8, 8, 9] := by decide

/-- Sections 1.1 and 2.2. -/
theorem test_new_errors :
    [(0, []), (-1, []), (-5, [0, 1]), (3, [0, 1, 2, 3]), (4, [0, 1, 2, 3]), (1, [0]), (0, [0])].map
      (fun a : Int × List Byte => (answer (.new a.1 a.2) State.reset, after (.new a.1 a.2) State.reset)) =
    List.replicate 7 (some (.err ⟨.configError, none⟩), some none) := by decide

theorem test_new_ok :
    after (.new 5 [0, 1, 2, 3]) State.reset = some (some (dec 5 [0, 1, 2, 3] 0 [] none)) ∧
    after (.new 1 []) State.reset = some (some (dec 1 [] 0 [] none)) := by decide

/-- Section 2.2: RESET in the middle of an attempt. -/
theorem test_reset :
    after .reset (st (dec 5 [0, 1] 2 [0, 1, 0x30] (some ⟨[0, 1, 0x20, 0x21, 0x22], 10⟩))) =
      some (some (dec 5 [0, 1] 0 [] none)) := by decide

theorem test_idle :
    after .idle (st (dec 5 [0, 1] 2 [0, 1, 0x30] none)) = some (some (dec 5 [0, 1] 2 [0, 1, 0x30] none)) := by decide

/-- Section 2.3: a mismatching byte equal to `H[0]` is not reconsidered; the first body byte may complete. -/
theorem test_feed_header :
    after (.feed 0x00 1) (st (dec 5 [0, 1] 0 [] none)) = some (some (dec 5 [0, 1] 1 [0] none)) ∧
    after (.feed 0x00 2) (st (dec 5 [0, 1] 1 [0] none)) = some (some (dec 5 [0, 1] 0 [] none)) ∧
    after (.feed 0x55 7) (st (dec 5 [0, 1] 1 [0] (some ⟨[0, 1, 0x20, 0x21, 0x22], 4⟩))) =
      some (some (dec 5 [0, 1] 0 [] (some ⟨[0, 1, 0x20, 0x21, 0x22], 4⟩))) := by decide

theorem test_feed_body :
    after (.feed 0x00 3) (st (dec 5 [0, 1] 2 [0, 1] none)) = some (some (dec 5 [0, 1] 2 [0, 1, 0] none)) ∧
    after (.feed 0x32 3) (st (dec 5 [0, 1] 2 [0, 1, 0x30, 0x31] (some ⟨[0, 1, 0x20, 0x21, 0x22], 9⟩))) =
      some (some (dec 5 [0, 1] 0 [] (some ⟨[0, 1, 0x30, 0x31, 0x32], 3⟩))) ∧
    after (.feed 0x7F 3) (st (dec 3 [0, 1] 2 [0, 1] none)) = some (some (dec 3 [0, 1] 0 [] (some ⟨[0, 1, 0x7F], 3⟩))) := by
  decide

/-- Section 2.4. -/
theorem test_mode :
    [0xA2, 0x00, 0xA0, 0xAE, 0xAF].map (fun m => answer .mode (st (holding (pb m 4 5 6 7 2 0xB0 0xC0 0)))) =
      [.known .vdc, .unknown, .unknown, .known .continuity, .unknown].map fun l => some (.ok (.mode l)) := by decide

theorem test_decimalPlaces :
    [0x00, 0x02, 0xFF].map (fun dp => answer .decimalPlaces (st (holding (pb 0xA2 4 5 6 7 dp 0xB0 0xC0 0)))) =
      [0x00, 0x02, 0xFF].map fun dp => some (.ok (.decimalPlaces dp)) := by decide

/-- Section 2.4: sign, overload before blank, blank, whole-byte digits, extremes. -/
theorem test_value_special :
    [PB, pb 0xA2 4 5 6 7 2 0xB0 0xC0 0x01, pb 0xA2 4 5 6 7 2 0xB0 0xC0 0xFE, pb 0xA2 0x0B 5 6 0x0F 2 0xB0 0xC0 0,
      pb 0xA2 0x0F 5 6 7 2 0xB0 0xC0 0, pb 0xA2 4 5 6 0x0F 2 0xB0 0xC0 1].map (fun p => answer .value (st (holding p))) =
      [some (.ok (.value 7654 2)), some (.ok (.value (-7654) 2)), some (.ok (.value 7654 2)),
        some (.err ⟨.overloadValue, none⟩), some (.err ⟨.overloadValue, none⟩), some (.ok (.value 0 2))] := by decide

theorem test_value_digits :
    [pb 0xA2 0x0A 0 0 0 2 0xB0 0xC0 0, pb 0xA2 0xFF 0xFF 0xFF 0xFF 2 0xB0 0xC0 1, pb 0xA2 0 0x0F 0 0 2 0xB0 0xC0 0,
      pb 0xA2 0 0 0x0B 0 2 0xB0 0xC0 0, pb 0xA2 0 0 0 0x0B 2 0xB0 0xC0 0].map (fun p => answer .value (st (holding p))) =
      [10, -283305, 150, 1100, 11000].map fun sm => some (.ok (.value sm 2)) := by decide

/-- Section 2.4: both milli codes, no cross-check, a miss of either table. -/
theorem test_units :
    [(0xB0, 0xC0), (0xB2, 0xC1), (0xB1, 0xC5), (0xB1, 0xC6), (0xB9, 0xC1), (0x00, 0xC0), (0xB0, 0xFF), (0x00, 0xFF)].map
      (fun c : Byte × Byte => answer .units (st (holding (pb 0xA2 4 5 6 7 2 c.1 c.2 0)))) =
      [some (.ok (.units .empty .volt)), some (.ok (.units .kilo .ohms)), some (.ok (.units .milli .amp)),
        some (.ok (.units .milli .amp)), some (.ok (.units .kilo .percent)), some (.err ⟨.unknownUnits, none⟩),
        some (.err ⟨.unknownUnits, none⟩), some (.err ⟨.unknownUnits, none⟩)] := by decide

theorem test_units_text :
    unitsText .kilo .ohms = "kOhms" ∧ unitsText .empty .degC = "Deg-C" ∧ unitsText .kilo .percent = "k%" := by decide

/-- Sections 1.3 and 2.2. -/
theorem test_rawPayload :
    answer .rawPayload (st (dec 5 [0, 1, 2, 3] 0 [] (some ⟨[0, 1, 2, 3, 4], 5⟩))) = some (.ok (.bytes [0, 1, 2, 3, 4])) ∧
    answer .rawPayload (st (dec 5 [0, 1, 2, 3] 1 [0] none)) = some (.ok (.bytes [])) := by decide

/-- Section 2.4, `last_completed_at` = 14. -/
theorem test_hasNewPayloadSince :
    [0, 13, 14, 15].map (fun ts => answer (.hasNewPayloadSince ts) (st (holding PB))) =
      [true, true, false, false].map (fun b => some (.ok (.bool b))) ∧
    answer (.hasNewPayloadSince 0) (st (dec 5 [] 0 [] none)) = some (.ok (.bool false)) := by decide

/-- Section 2.5: size before overload; the `L` at which each accessor starts to answer. -/
theorem test_undersized :
    [4, 5, 9, 10, 11, 12, 13].map (fun L =>
      let s := st (holding ((List.replicate L 0).set 5 0x0B))
      [answer .mode s, answer .decimalPlaces s, answer .value s, answer .units s].map (Option.map Response.status)) =
      [[some 2, some 2, some 2, some 2], [some 0, some 2, some 2, some 2], [some 0, some 2, some 2, some 2],
        [some 0, some 0, some 2, some 2], [some 0, some 0, some 2, some 2], [some 0, some 0, some 2, some 4],
        [some 0, some 0, some 3, some 4]] := by decide

/-- Section 1.6: the ports of the worked example. -/
theorem test_value_ports :
    (Response.ok (.value 7654 2)).ports.valSm = some 0x01DE6 ∧ (Response.ok (.value (-7654) 2)).ports.valSm = some 0xFE21A ∧
    (Response.ok (.value 283305 2)).ports.valSm = some 0x452A9 ∧ (Response.ok (.value (-283305) 2)).ports.valSm = some 0xBAD57 := by
  decide

/-- R83: FEEDN is FEED at rising times, and a poll that answers true refreshes `prev`. -/
theorem test_pseudo :
    feedN [0x0A, 0x0B] 7 = [.feed 0x0A 7, .feed 0x0B 8] ∧ refreshPrev (holding PB) 13 = 14 ∧
    refreshPrev (holding PB) 14 = 14 := by decide

/-- The operation of each table word runs as the first one after reset; a reserved code is refused. -/
theorem test_first_step_runs :
    (List.range 11).map (fun w => match step (State.reset.withFetchWord 8 w) with
      | .next _ => true
      | _ => false) = List.replicate 11 true ∧
    step (State.reset.withFetchWord 8 0xB) = .refused (.reservedOp 0xB) := ⟨by decide, rfl⟩

/-- Section 1.1 with `93_implementation_defined.md` U15: after `ConfigError` there is no instance to run on. -/
theorem test_no_instance :
    exec .value { st (dec 5 [] 0 [] none) with decoder := none } = .refused .noInstance := rfl

/-! ### Witnesses -/

/-- A step of a machine waiting for one presentation. -/
def waiting (p : Presentation) : State := { st (dec 5 [0, 1] 0 [] none) with pending := [p] }

theorem valid5 : ({ frameLength := 5, header := [0, 1] } : FrameSpec).Valid := ⟨by decide, by decide⟩
theorem valid3 : ({ frameLength := 3, header := [] } : FrameSpec).Valid := ⟨by decide, by decide⟩

/-- States a run reaches meet the invariant: the header half matched, matched, one byte short, and a payload held. -/
theorem inv_reached (fs : List (Byte × Time)) : ((FrameDecoder.fresh ⟨5, [0, 1]⟩).feedAll fs).Inv :=
  (FrameDecoder.fresh_inv valid5).feedAll fs

theorem inv_empty : (dec 5 [0, 1] 0 [] none).Inv := inv_reached []
theorem inv_half : (dec 5 [0, 1] 1 [0] none).Inv := inv_reached [(0, 1)]
theorem inv_body : (dec 5 [0, 1] 2 [0, 1, 9] none).Inv := inv_reached [(0, 1), (1, 2), (9, 3)]
theorem inv_last : (dec 5 [0, 1] 2 [0, 1, 9, 8] none).Inv := inv_reached [(0, 1), (1, 2), (9, 3), (8, 4)]
theorem inv_held : (dec 5 [0, 1] 0 [] (some ⟨[0, 1, 9, 8, 7], 5⟩)).Inv := inv_reached [(0, 1), (1, 2), (9, 3), (8, 4), (7, 5)]

theorem witness_StepRunsDecodedOperation :
    ((waiting (drive (.feed 7 9))).pending = [drive (.feed 7 9)] ∧ decode (drive (.feed 7 9)) = .ok (.feed 7 9)) ∧
    (st (dec 5 [0, 1] 0 [] none)).pending = [] ∧
    ((waiting (.ofOp 0xB)).pending = [.ofOp 0xB] ∧ 0xB ≤ (Presentation.ofOp 0xB).op.toNat) ∧
    0xB ≤ (Presentation.ofOp 0xF).op.toNat := by decide

theorem witness_OpCodeSelectsOperation :
    (∀ k : Fin 11, (Presentation.ofOp (BitVec.ofNat 4 k)).op = BitVec.ofNat 4 k) ∧
    0xB ≤ (Presentation.ofOp 0xB).op.toNat ∧ 0xB ≤ (Presentation.ofOp 0xF).op.toNat := by decide

theorem witness_DecodeEncodeRoundTrip :
    (Instr.isSet 255 255).wellFormed Config.defaultWidths = true ∧
    (Instr.isSet 0 0).wellFormed Config.defaultWidths = true ∧
    (Instr.feed 0xFF (2 ^ 64 - 1)).wellFormed Config.defaultWidths = true ∧
    (Instr.hasNewPayloadSince (2 ^ 64 - 1)).wellFormed Config.defaultWidths = true := by decide

theorem witness_EncodeDecodeUsedPorts :
    let p : Presentation := { Presentation.ofOp 0x2 with argFlags := 255, argPos := 255, now := 3 }
    p.fits Config.defaultWidths = true ∧ decode p = .ok (.isSet 255 255) ∧
    p.usedPorts = { Presentation.ofOp 0x2 with argFlags := 255, argPos := 255 } ∧
    p.usedPorts = ({ p with argByte := 7, argTs := 9, cfgHeader := [1] } : Presentation).usedPorts := by decide

theorem witness_IsSetAnswersBit :
    (st (dec 5 [] 0 [] none)).decoder = some (dec 5 [] 0 [] none) ∧ (Presentation.ofOp 0x2).op = 0x2 ∧
    (5 ≠ 0 ∧ ((4 : Int) < 0 ∨ (bitLength 5 : Int) < 4) ∧ ((-1 : Int) < 0 ∨ (bitLength 5 : Int) < -1)) ∧
    (5 ≠ 0 ∧ (0 : Int) ≤ 3 ∧ (3 : Int) ≤ bitLength 5) ∧ (5 ≠ 0 ∧ (0 : Int) ≤ 0 ∧ (0 : Int) ≤ bitLength 5) := by decide

theorem witness_BitLengthIsHighestSetBitPosition :
    0 < 1 ∧ (2 ^ (1 - 1) ≤ 1 ∧ 1 < 2 ^ 1) ∧ bitLength 1 ≤ 1 ∧ (2 ^ (8 - 1) ≤ 0x80 ∧ 0x80 < 2 ^ 8) := by decide

theorem witness_NewConstructsFreshOrConfigError :
    (Presentation.ofOp 0x9).op = 0x9 ∧
    ((0 : Int) < 1 ∨ (0 : Int) ≤ ([] : List Byte).length) ∧ ((4 : Int) < 1 ∨ (4 : Int) ≤ ([0, 1, 2, 3] : List Byte).length) ∧
    ((1 : Int) ≤ 1 ∧ (([] : List Byte).length : Int) < 1) ∧ ((1 : Int) ≤ 5 ∧ (([0, 1, 2, 3] : List Byte).length : Int) < 5) := by
  decide

theorem witness_ResetReturnsToFresh :
    (Presentation.ofOp 0xA).op = 0xA ∧ (st (dec 5 [0, 1] 1 [0] none)).decoder = some (dec 5 [0, 1] 1 [0] none) := by decide

theorem witness_IdleHoldsStateForever :
    (Presentation.ofOp 0x0).op = 0x0 ∧ (st (dec 5 [0, 1] 1 [0] none)).decoder = some (dec 5 [0, 1] 1 [0] none) ∧
    (st (dec 5 [0, 1] 1 [0] none)).pending = [] := by decide

theorem witness_WithoutInstanceOnlyNewRuns : ({ st (dec 5 [] 0 [] none) with decoder := none } : State).decoder = none := rfl

theorem witness_FeedHeaderMatchAdvancesCursor :
    (dec 5 [0, 1] 0 [] none).cursor < (dec 5 [0, 1] 0 [] none).headerLength ∧ (dec 5 [0, 1] 0 [] none).header[0]? = some 0 ∧
    (dec 5 [0, 1] 1 [0] none).Inv ∧ (dec 5 [0, 1] 1 [0] none).cursor < (dec 5 [0, 1] 1 [0] none).headerLength ∧
    (dec 5 [0, 1] 1 [0] none).header[1]? = some 1 ∧
    ((dec 5 [0, 1] 1 [0] none).matchHeader 1).cursor = ((dec 5 [0, 1] 1 [0] none).matchHeader 1).headerLength :=
  ⟨by decide, by decide, inv_half, by decide, by decide, by decide⟩

theorem witness_FeedHeaderMismatchDropsAttempt :
    (dec 5 [0, 1] 1 [0] none).cursor < (dec 5 [0, 1] 1 [0] none).headerLength ∧
    (dec 5 [0, 1] 1 [0] none).header[1]? ≠ some 0 ∧
    (dec 5 [0, 1] 0 [] none).Inv ∧ (dec 5 [0, 1] 0 [] none).header[0]? ≠ some 1 ∧ (dec 5 [0, 1] 0 [] none).cursor = 0 ∧
    (dec 5 [0, 1] 0 [] none).cursor < (dec 5 [0, 1] 0 [] none).headerLength :=
  ⟨by decide, by decide, inv_empty, by decide, by decide, by decide⟩

theorem witness_FeedBodyByteAppends :
    (dec 5 [0, 1] 2 [0, 1, 9] none).cursor = (dec 5 [0, 1] 2 [0, 1, 9] none).headerLength ∧
    (dec 5 [0, 1] 2 [0, 1, 9] none).fill + 1 < (dec 5 [0, 1] 2 [0, 1, 9] none).frameLength := by decide

theorem witness_FeedCompletionPublishesFrame :
    (dec 5 [0, 1] 2 [0, 1, 9, 8] none).Inv ∧
    (dec 5 [0, 1] 2 [0, 1, 9, 8] none).cursor = (dec 5 [0, 1] 2 [0, 1, 9, 8] none).headerLength ∧
    (dec 5 [0, 1] 2 [0, 1, 9, 8] none).fill + 1 = (dec 5 [0, 1] 2 [0, 1, 9, 8] none).frameLength :=
  ⟨inv_last, by decide, by decide⟩

theorem witness_FeedNeverFails :
    (Presentation.ofOp 0x1).op = 0x1 ∧ (st (dec 5 [0, 1] 1 [0] none)).decoder = some (dec 5 [0, 1] 1 [0] none) ∧
    (dec 5 [0, 1] 1 [0] none).Inv := ⟨by decide, rfl, inv_half⟩

theorem witness_FeedStoresOneByteAtFill :
    ((dec 5 [0, 1] 1 [0] none).Inv ∧ (dec 5 [0, 1] 1 [0] none).feedArm 1 = .headerMatch ∧
      (dec 5 [0, 1] 1 [0] none).feedArm 0 = .headerMismatch) ∧
    ((dec 5 [0, 1] 2 [0, 1, 9] none).Inv ∧ (dec 5 [0, 1] 2 [0, 1, 9] none).feedArm 0 = .bodyByte) ∧
    ((dec 5 [0, 1] 2 [0, 1, 9, 8] none).Inv ∧ (dec 5 [0, 1] 2 [0, 1, 9, 8] none).feedArm 0 = .completion) :=
  ⟨⟨inv_half, by decide, by decide⟩, ⟨inv_body, by decide⟩, ⟨inv_last, by decide⟩⟩

theorem witness_ZeroLengthHeaderCutsStream :
    ({ frameLength := 3, header := [] } : FrameSpec).Valid ∧ ({ frameLength := 3, header := [] } : FrameSpec).header = [] :=
  ⟨valid3, rfl⟩

theorem witness_FedRunIsChunkingIndependentFold :
    let s : State := { st (dec 5 [0, 1] 0 [] none) with pending := feedPresentations [(0, 1), (1, 2), (9, 3)] ++ [.ofOp 5] }
    s.decoder = some (dec 5 [0, 1] 0 [] none) ∧
    s.pending = feedPresentations ([(0, 1)] ++ [(1, 2), (9, 3)]) ++ [.ofOp 5] ∧
    ([(0, 1)] ++ [(1, 2), (9, 3)] : List (Byte × Time)) ≠ [] := by decide

theorem witness_CleanFrameCompletes :
    let d := dec 5 [0, 1] 0 [] none
    let bs : List Byte := [0, 1, 9, 8, 7]
    let ts : List Time := [1, 2, 3, 4, 5]
    d.spec.Valid ∧ d.cursor = 0 ∧ d.partialBytes = [] ∧ bs.length = d.frameLength ∧ bs.take d.headerLength = d.header ∧
    ts.length = d.frameLength ∧ ts.getLast? = some 5 ∧ 0 < d.frameLength ∧ 4 < d.frameLength :=
  ⟨valid5, by decide⟩

theorem witness_NoiseWithoutHeaderStartIsHarmless :
    (dec 5 [0, 1] 0 [] (some ⟨[0, 1, 9, 8, 7], 5⟩)).Inv ∧ (dec 5 [0, 1] 0 [] (some ⟨[0, 1, 9, 8, 7], 5⟩)).cursor = 0 ∧
    (dec 5 [0, 1] 0 [] (some ⟨[0, 1, 9, 8, 7], 5⟩)).header[0]? = some 0 ∧
    ∀ f ∈ ([(0xFF, 11), (0xFE, 12), (0xFD, 13)] : List (Byte × Time)), f.1 ≠ 0 :=
  ⟨inv_held, by decide, by decide, by decide⟩

theorem witness_FalseStartLosesNextFrame :
    (dec 5 [0, 1] 1 [0] none).Inv ∧ 0 < (dec 5 [0, 1] 1 [0] none).cursor ∧
    (dec 5 [0, 1] 1 [0] none).cursor < (dec 5 [0, 1] 1 [0] none).headerLength ∧
    (dec 5 [0, 1] 1 [0] none).header[0]? = some 0 ∧ (dec 5 [0, 1] 1 [0] none).header[1]? ≠ some 0 ∧
    ∀ f ∈ ([(1, 3), (0x40, 4), (0x41, 5), (0x42, 6)] : List (Byte × Time)), f.1 ≠ 0 :=
  ⟨inv_half, by decide, by decide, by decide, by decide, by decide⟩

theorem witness_LockedAttemptCompletes :
    (dec 5 [0, 1] 2 [0, 1, 9] none).Inv ∧
    (dec 5 [0, 1] 2 [0, 1, 9] none).cursor = (dec 5 [0, 1] 2 [0, 1, 9] none).headerLength ∧
    ([(0, 4)] : List (Byte × Time)).length + 1 =
      (dec 5 [0, 1] 2 [0, 1, 9] none).frameLength - (dec 5 [0, 1] 2 [0, 1, 9] none).fill :=
  ⟨inv_body, by decide, by decide⟩

theorem witness_PayloadsAreDisjointStretchesOfTheStream :
    ({ frameLength := 5, header := [0, 1] } : FrameSpec).Valid ∧
    ((FrameDecoder.fresh ⟨5, [0, 1]⟩).completionsOf [(6, 0), (0, 1), (1, 2), (9, 3), (8, 4), (7, 5)]).length = 1 :=
  ⟨valid5, by decide⟩

theorem witness_LastCompletedAtNeverDecreases :
    let d := dec 1 [] 0 [] (some ⟨[3], 2⟩)
    (d.lastCompletedAt.toList ++ (d.completionsOf ([(4, 7)] ++ [(5, 7)])).map Completion.completedAt).Pairwise (· ≤ ·) ∧
    (d.feedAll [(4, 7)]).lastCompletedAt = some 7 ∧ (d.feedAll ([(4, 7)] ++ [(5, 7)])).lastCompletedAt = some 7 := by decide

theorem witness_AbsentOrUndersizedPayloadIsOutOfRange :
    (dec 13 [] 0 [] none).completed = none ∧ (holding (List.replicate 4 0)).frameLength < 5 ∧
    (holding (List.replicate 9 0)).frameLength < 10 ∧ (holding (List.replicate 11 0)).frameLength < 12 ∧
    (holding (List.replicate 12 0)).frameLength < 13 := by decide

/-- A configuration whose header reaches the mode byte (spec/30_encoding.md R69). -/
theorem inv_long_header : (dec 6 [1, 2, 3, 4, 0xA2] 0 [] (some ⟨[1, 2, 3, 4, 0xA2, 9], 6⟩)).Inv :=
  (FrameDecoder.fresh_inv (sp := ⟨6, [1, 2, 3, 4, 0xA2]⟩) ⟨by decide, by decide⟩).feedAll
    [(1, 1), (2, 2), (3, 3), (4, 4), (0xA2, 5), (9, 6)]

theorem witness_ModeAnswersTableLabel :
    (Presentation.ofOp 0x3).op = 0x3 ∧ 5 ≤ (holding [0, 0, 0, 0, 0xA2]).frameLength ∧
    ([0, 0, 0, 0, 0xA2] : List Byte)[4]? = some 0xA2 ∧ tableLookup tcfg.mode 0xA2 = some .vdc ∧
    tableLookup tcfg.mode 0xAF = none ∧
    (dec 6 [1, 2, 3, 4, 0xA2] 0 [] (some ⟨[1, 2, 3, 4, 0xA2, 9], 6⟩)).Inv ∧
    5 ≤ (dec 6 [1, 2, 3, 4, 0xA2] 0 [] (some ⟨[1, 2, 3, 4, 0xA2, 9], 6⟩)).headerLength :=
  ⟨by decide, by decide, by decide, by decide, by decide, inv_long_header, by decide⟩

theorem witness_DecimalPlacesAnswersByteNine :
    (Presentation.ofOp 0x4).op = 0x4 ∧ 10 ≤ (holding (List.replicate 10 3)).frameLength ∧
    (List.replicate 10 (3 : Byte))[9]? = some 3 := by decide

/-- The four clauses of VALUE: overload, blank, positive and negative. -/
theorem witness_ValueAnswersSignedMagnitude :
    (Presentation.ofOp 0x5).op = 0x5 ∧ 13 ≤ (holding (PB.take 13)).frameLength ∧
    PB = [0xA5, 0x5A, 0, 0, 0xA2, 4, 5, 6, 7, 2, 0xB0, 0xC0, 0] ++ [0xEE] ∧
    ((0x0B : Byte) = 0x0B ∨ (0x0B : Byte) = 0x0F) ∧ ((4 : Byte) ≠ 0x0B ∧ (4 : Byte) ≠ 0x0F ∧ (0x0F : Byte) = 0x0F) ∧
    ((7 : Byte) ≠ 0x0F ∧ (0xFE : Byte).toNat % 2 = 0) ∧ (0xFF : Byte).toNat % 2 = 1 := by decide

theorem witness_ValueArithmeticIsExact : answer .value (st (holding PB)) = some (.ok (.value 7654 2)) := by decide

theorem witness_UnitsAnswersPrefixAndLabel :
    (Presentation.ofOp 0x6).op = 0x6 ∧ 12 ≤ (holding (PB.take 12)).frameLength ∧ (PB.take 12)[10]? = some 0xB0 ∧
    (PB.take 12)[11]? = some 0xC0 ∧ tableLookup tcfg.unit 0xB0 = some .volt ∧
    (tableLookup tcfg.mult 0xC0).map Multiplier.siPrefix = some .empty ∧ tableLookup tcfg.unit 0xBA = none ∧
    (tableLookup tcfg.mult 0xC7).isNone = true := by decide

theorem witness_RawPayloadAnswersWholeFrame :
    (Presentation.ofOp 0x7).op = 0x7 ∧ (holding PB).completed = some ⟨PB, 14⟩ ∧ (dec 5 [] 0 [] none).completed = none := by decide

theorem witness_HasNewPayloadSinceComparesTime :
    (Presentation.ofOp 0x8).op = 0x8 ∧ (holding PB).completed = some ⟨PB, 14⟩ ∧ (dec 5 [] 0 [] none).completed = none := by decide

theorem witness_FreshStateAnswers : (st (.fresh ⟨5, [0, 1]⟩)).decoder = some (.fresh ⟨5, [0, 1]⟩) := rfl

/-- Two decoders in different attempts with the same payload, completed at different times; two with the same time only. -/
theorem witness_AccessorsSeeOnlyCompletedPayload :
    (dec 5 [0, 1] 0 [] (some ⟨[0, 1, 9, 8, 7], 5⟩)).SameReading (dec 5 [0, 1] 1 [0] (some ⟨[0, 1, 9, 8, 7], 6⟩)) ∧
    (dec 5 [] 0 [] (some ⟨[0], 5⟩)).lastCompletedAt = (dec 3 [] 0 [9] (some ⟨[1], 5⟩)).lastCompletedAt :=
  ⟨⟨rfl, rfl, rfl⟩, rfl⟩

/-- Payloads that differ in byte 11, and tables that differ in a scale factor only. -/
theorem witness_MultiplierDoesNotScaleValue :
    (∀ k, k ≠ 11 → PB[k]? = (pb 0xA2 4 5 6 7 2 0xB0 0xC1 0)[k]?) ∧ PB ≠ pb 0xA2 4 5 6 7 2 0xB0 0xC1 0 ∧
    tcfg.unit = ({ tcfg with mult := tableFrom 0xC0 (multipliers.map fun m => { m with scale := 0 }) } : Tables).unit ∧
    ∀ c : Byte, (tableLookup tcfg.mult c).map Multiplier.siPrefix =
      (tableLookup (tableFrom 0xC0 (multipliers.map fun m => { m with scale := 0 })) c).map Multiplier.siPrefix := by
  refine ⟨fun k hk => ?_, by decide, rfl, fun c => ?_⟩
  · by_cases h : k < 14
    · interval_cases k <;> first | rfl | exact absurd rfl hk
    · rw [List.getElem?_eq_none (by simp [PB, pb]; omega), List.getElem?_eq_none (by simp [pb]; omega)]
  · simp only [tableLookup, tcfg, tableFrom, Vector.getElem_mk, List.getElem_toArray, List.getElem_map, List.getElem_range]
    split
    · simp [List.getElem?_map, Option.map_map, Function.comp_def]
    · rfl

theorem witness_ReadingIsTheAccessorsAnswers :
    (st (holding PB)).decoder = some (holding PB) ∧ ((holding PB).reading tcfg).value = .ok (.value 7654 2) ∧
    PB[12]? = some 0 ∧ ((holding PB).reading tcfg).rawMagnitude = some 7654 ∧
    ((holding PB).reading tcfg).negative = some false ∧
    (let minus := holding (pb 0xA2 4 5 6 7 2 0xB0 0xC0 0xFF)
     (minus.reading tcfg).value = .ok (.value (-7654) 2) ∧ (minus.reading tcfg).rawMagnitude = some 7654 ∧
      (minus.reading tcfg).negative = some true) ∧ (dec 13 [] 0 [] none).completed = none := by decide

theorem witness_UnitsTextDeterminesPair : unitsText .kilo .ohms = unitsText .kilo .ohms := rfl

theorem witness_StepKeepsInvariant :
    (waiting (drive (.feed 0 1))).Inv ∧ ∃ t, step (waiting (drive (.feed 0 1))) = .next t :=
  ⟨fun d hd => by cases hd; exact inv_empty, _, (step_of_pending rfl (decode_drive _)).trans (exec_feed_eq rfl 0 1)⟩

theorem witness_StepAnswersInRange : ∃ t, step (waiting (drive .value)) = .next t :=
  ⟨_, (step_of_pending rfl (decode_drive _)).trans (exec_value_eq rfl)⟩

theorem witness_OperationsWriteOnlyWhatTheyOwn :
    (dec 5 [0, 1] 0 [] none).feedArm 0 = .headerMatch ∧ (dec 1 [] 0 [] none).feedArm 0 = .completion ∧
    (∃ t, exec .value (st (holding PB)) = .next t) ∧ (∃ t, exec (.feed 0 1) (st (dec 5 [0, 1] 0 [] none)) = .next t) ∧
    (∃ t, exec .reset (st (holding PB)) = .next t) ∧ ∃ t, exec (.new 5 [0, 1]) (st (holding PB)) = .next t :=
  ⟨by decide, by decide, ⟨_, rfl⟩, ⟨_, rfl⟩, ⟨_, rfl⟩, _, exec_new_ok _ (by decide)⟩

theorem witness_ConfigurationIsImmutable :
    (waiting (drive (.feed 0 1))).decoder = some (dec 5 [0, 1] 0 [] none) ∧
    (∃ t, step (waiting (drive (.feed 0 1))) = .next t) ∧
    ∀ i, decode (waiting (drive (.feed 0 1))).takePresentation.1 = .ok i → ∀ l h, i ≠ .new l h :=
  ⟨rfl, ⟨_, (step_of_pending rfl (decode_drive _)).trans (exec_feed_eq rfl 0 1)⟩, fun i h l hd e => by subst e; cases h⟩

/-- An error of IS_SET, which carries information, and one of VALUE, which does not; both leave the state. -/
theorem witness_ErrorKindsPerOperation :
    answer (.isSet 5 4) (st (holding PB)) = some (.err ⟨.outOfRange, some ⟨4, 5, 3⟩⟩) ∧
    answer .value (st (dec 13 [] 0 [] none)) = some (.err ⟨.outOfRange, none⟩) := by decide

theorem witness_ErrorsChangeNoState :
    answer .value (st (dec 13 [] 0 [] none)) = some (.err ⟨.outOfRange, none⟩) ∧ ∀ l h, Instr.value ≠ .new l h :=
  ⟨by decide, fun _ _ h => by cases h⟩

theorem witness_CountersFitTheirWidths : (dec 5 [0, 1] 2 [0, 1, 9, 8] none).Inv := inv_last

theorem witness_TwoMilliCodesAnswerAlike :
    MultTableShape tcfg.mult ∧ 12 ≤ (holding PB).frameLength ∧ PB[10]? = some 0xB0 ∧ tableLookup tcfg.unit 0xB0 = some .volt := by
  refine ⟨⟨fun p => ?_, 0xC5, 0xC6, _, _, by decide, rfl, rfl, rfl, rfl⟩, by decide, by decide, by decide⟩
  cases p
  · exact ⟨0xC0, _, rfl, rfl⟩
  · exact ⟨0xC1, _, rfl, rfl⟩
  · exact ⟨0xC2, _, rfl, rfl⟩
  · exact ⟨0xC3, _, rfl, rfl⟩
  · exact ⟨0xC4, _, rfl, rfl⟩
  · exact ⟨0xC5, _, rfl, rfl⟩

/-- Each operation gives a next state, with a result and, where it has one, with an error. -/
theorem witness_ResultPortsCarryTheAnswer :
    answer (.isSet 5 2) (st (holding PB)) = some (.ok (.bool true)) ∧
    answer (.isSet 5 4) (st (holding PB)) = some (.err ⟨.outOfRange, some ⟨4, 5, 3⟩⟩) ∧
    answer .mode (st (holding PB)) = some (.ok (.mode (.known .vdc))) ∧
    answer .decimalPlaces (st (holding PB)) = some (.ok (.decimalPlaces 2)) ∧
    answer .value (st (holding PB)) = some (.ok (.value 7654 2)) ∧
    answer .value (st (holding (pb 0xA2 0x0B 5 6 7 2 0xB0 0xC0 0))) = some (.err ⟨.overloadValue, none⟩) ∧
    answer .units (st (holding PB)) = some (.ok (.units .empty .volt)) ∧
    answer .units (st (holding (pb 0xA2 4 5 6 7 2 0xBA 0xC0 0))) = some (.err ⟨.unknownUnits, none⟩) ∧
    answer .rawPayload (st (holding [1])) = some (.ok (.bytes [1])) ∧
    answer (.hasNewPayloadSince 13) (st (holding PB)) = some (.ok (.bool true)) ∧
    answer (.feed 0 1) (st (dec 5 [0, 1] 0 [] none)) = some (.ok .done) ∧
    answer .idle (st (holding PB)) = some (.ok .done) ∧ answer .reset (st (holding PB)) = some (.ok .done) ∧
    answer (.new 5 [0, 1]) (st (holding PB)) = some (.ok .constructed) ∧
    answer (.new 2 [0, 1]) (st (holding PB)) = some (.err ⟨.configError, none⟩) ∧
    (dec 5 [0, 1] 0 [] (some ⟨[0, 1, 9, 8, 7], 5⟩)).Inv :=
  ⟨by decide, by decide, by decide, by decide, by decide, by decide, by decide, by decide, by decide, by decide, by decide,
    by decide, by decide, by decide, by decide, inv_held⟩

end Sys2Proof.Tests
end

section
/-! PROOFS. Steps: which operation the next presentation selects (spec/00_scope.md R5, spec/30_encoding.md R70, R79). -/

namespace Sys2Proof

/-- The codes above the last row of R70 reach the last arm of `decode` only (R79). -/
theorem decode_of_reserved {p : Presentation} (h : 0xB ≤ p.op.toNat) : decode p = .error (.reservedOp p.op) := by
  unfold decode
  split
  case h_12 => rfl
  all_goals omega

namespace Machine

theorem step_of_decode_error {s : State} {op : BitVec 4} (h : decode s.takePresentation.1 = .error (.reservedOp op)) :
    step s = .refused (.reservedOp op) := by
  simp [step, h]

/-- A caller that makes no call presents IDLE (R102), and the state is not changed by taking it. -/
theorem step_of_no_pending {s : State} (h : s.pending = []) : step s = exec .idle s := by
  have hdec : decode s.takePresentation.1 = .ok .idle := by
    rw [State.takePresentation_of_idle h]
    exact decode_drive .idle
  rw [step_of_decode hdec, State.takePresentation_of_idle h]

theorem step_of_reserved {s : State} {p : Presentation} {rest : List Presentation} (hp : s.pending = p :: rest)
    (h : 0xB ≤ p.op.toNat) : step s = .refused (.reservedOp p.op) := by
  apply step_of_decode_error
  rw [State.takePresentation_of_pending hp]
  exact decode_of_reserved h

/-- Settles O1: one lemma for each of a presented operation, no presentation, and a reserved code. -/
theorem stepRunsDecodedOperation : Obligations.StepRunsDecodedOperation :=
  ⟨fun _ _ _ _ => step_of_pending, fun _ => step_of_no_pending, fun _ _ _ => step_of_reserved⟩

end Machine

end Sys2Proof
end

section
/-! PROOFS. The invariant of spec/10_state.md R27 (INV1 to INV7): the reset state meets it, every operation keeps it, and under
it the counters fit the widths of R29. -/

namespace Sys2Proof.Machine

/-- What NEW accepts (R100) is a valid `FrameSpec` (R21). -/
theorem FrameSpec.valid_of_frameSpecOk {l : Int} {hd : List Byte} (h : frameSpecOk l hd = true) :
    ({ frameLength := l.toNat, header := hd } : FrameSpec).Valid := by
  obtain ⟨hpos, hlong⟩ := (frameSpecOk_iff l hd).1 h
  exact ⟨by show 1 ≤ l.toNat; omega, by show hd.length < l.toNat; omega⟩

/-! ### Reset -/

/-- Whatever the OPEN constants are (log entry 3), the built decoder is Fresh over a valid `FrameSpec`. -/
theorem State.reset_decoder_fresh : ∃ sp : FrameSpec, sp.Valid ∧ State.reset.decoder = some (.fresh sp) :=
  ⟨⟨Config.header.length + 1 + Config.extraBodyBytes, Config.header⟩,
    ⟨by simp only; omega, by simp only; omega⟩, rfl⟩

theorem FrameDecoder.fresh_phase (sp : FrameSpec) :
    (FrameDecoder.fresh sp).phase = if 0 < sp.header.length then Phase.headerSync else Phase.payloadFill := rfl

/-- Settles O11: the built decoder is Fresh over a valid `FrameSpec`, and a Fresh decoder has these fields. -/
theorem powerUpStateIsFresh : Obligations.PowerUpStateIsFresh := by
  obtain ⟨sp, hvalid, hdec⟩ := State.reset_decoder_fresh
  exact ⟨.fresh sp, hdec, rfl, rfl, rfl, rfl, rfl, rfl, hvalid.positive, hvalid.longer, FrameDecoder.fresh_phase sp⟩

theorem State.inv_of_decoder_some {s : State} {d : FrameDecoder} (h : s.decoder = some d) (hi : d.Inv) : s.Inv := by
  intro e he
  obtain rfl := Option.some.inj (h.symm.trans he)
  exact hi

theorem State.inv_of_decoder_none {s : State} (h : s.decoder = none) : s.Inv := by
  intro d hd
  rw [h] at hd
  cases hd

/-- Settles O42: a Fresh decoder of a valid `FrameSpec` meets the invariant. -/
theorem resetMeetsInvariant : Obligations.ResetMeetsInvariant := by
  obtain ⟨sp, hvalid, hdec⟩ := State.reset_decoder_fresh
  exact State.inv_of_decoder_some hdec (FrameDecoder.fresh_inv hvalid)

/-! ### Operations and steps -/

/-- NEW and RESET leave a Fresh decoder or none, FEED keeps the invariant of the decoder, the rest leave the decoder. -/
theorem State.Inv.exec {i : Instr} {s t : State} (hs : s.Inv) (h : exec i s = .next t) : t.Inv := by
  rcases exec_next_cases h with ⟨l, hd, -, hok, rfl⟩ | ⟨l, hd, -, -, rfl⟩ | ⟨d, hd, hcase⟩
  · exact State.inv_of_decoder_some rfl (FrameDecoder.fresh_inv (FrameSpec.valid_of_frameSpecOk hok))
  · exact State.inv_of_decoder_none rfl
  · have hi : d.Inv := hs d hd
    rcases hcase with ⟨b, now, -, rfl⟩ | ⟨-, rfl⟩ | ⟨-, rfl⟩
    · exact State.inv_of_decoder_some rfl (hi.feed b now)
    · exact State.inv_of_decoder_some rfl (FrameDecoder.fresh_inv hi.valid)
    · exact State.inv_of_decoder_some hd hi

theorem State.Inv.takePresentation {s : State} (hs : s.Inv) : s.takePresentation.2.Inv := by
  intro d hd
  rw [State.takePresentation_decoder] at hd
  exact hs d hd

/-- Settles O43: a step takes a presentation, which leaves the decoder, and runs one operation, which keeps the invariant. -/
theorem stepKeepsInvariant : Obligations.StepKeepsInvariant := by
  intro s t hs h
  obtain ⟨i, -, hexec⟩ := step_next h
  exact hs.takePresentation.exec hexec

/-! ### The widths of the counters -/

theorem ceilLog2_eq_bitLength (n : Nat) : ceilLog2 n = bitLength (n - 1) := by
  unfold ceilLog2 bitLength
  by_cases h : n ≤ 1
  · rw [if_pos h, if_pos (by omega)]
  · rw [if_neg h, if_neg (by omega)]

/-- `ceil(log2(n))` bits hold every value below `n`. -/
theorem lt_two_pow_ceilLog2 {m n : Nat} (h : m < n) : m < 2 ^ ceilLog2 n := by
  rw [ceilLog2_eq_bitLength]
  calc m ≤ n - 1 := by omega
    _ < 2 ^ bitLength (n - 1) := lt_two_pow_bitLength _

/-- Settles O49: INV1 bounds the cursor by `N`, and INV7 the fill by `L - 1`, where `L` is positive. -/
theorem countersFitTheirWidths : Obligations.CountersFitTheirWidths := by
  intro d hi
  have hcursor : d.cursor < d.headerLength + 1 := Nat.lt_succ_of_le hi.inv1
  have hfill : d.fill < d.frameLength := Nat.lt_of_le_pred hi.valid.positive hi.inv7
  exact ⟨lt_two_pow_ceilLog2 hcursor, lt_two_pow_ceilLog2 hfill⟩

end Sys2Proof.Machine
end

section
/-! PROOFS. Which operation writes what (spec/10_state.md R33). -/

namespace Sys2Proof.Machine

/-- No operation writes the tables (log entries 4 and 13) or the caller's list (log entry 1). -/
theorem exec_keeps_tables_pending {i : Instr} {s t : State} (h : exec i s = .next t) :
    t.tables = s.tables ∧ t.pending = s.pending := by
  rcases exec_next_cases h with ⟨l, hd, -, -, rfl⟩ | ⟨l, hd, -, -, rfl⟩ |
    ⟨d, -, ⟨b, now, -, rfl⟩ | ⟨-, rfl⟩ | ⟨-, rfl⟩⟩ <;> exact ⟨rfl, rfl⟩

theorem exec_readOnly_writes_response {i : Instr} {s t : State} (hi : i.readOnly = true) (h : exec i s = .next t) :
    t = { s with response := t.response } := by
  rcases exec_next_cases h with ⟨l, hd, rfl, -, -⟩ | ⟨l, hd, rfl, -, -⟩ |
    ⟨d, -, ⟨b, now, rfl, -⟩ | ⟨rfl, -⟩ | ⟨-, rfl⟩⟩
  · cases hi
  · cases hi
  · cases hi
  · cases hi
  · rfl

theorem exec_feed_next {b : Byte} {now : Time} {s t : State} (h : exec (.feed b now) s = .next t) :
    ∃ d, s.decoder = some d ∧ t.decoder = some (d.feed b now) := by
  obtain ⟨d, hd, rfl⟩ := State.withDecoder_next h
  exact ⟨d, hd, rfl⟩

theorem exec_reset_next {s t : State} (h : exec .reset s = .next t) :
    ∃ d, s.decoder = some d ∧ t.decoder = some (.fresh d.spec) := by
  obtain ⟨d, hd, rfl⟩ := State.withDecoder_next h
  exact ⟨d, hd, rfl⟩

theorem exec_new_constructed {l : Int} {hd : List Byte} {s t : State} (h : exec (.new l hd) s = .next t)
    (hr : t.response = .ok .constructed) : t.decoder = some (.fresh { frameLength := l.toNat, header := hd }) := by
  cases hok : frameSpecOk l hd with
  | true =>
    obtain rfl := Host.Outcome.next.inj ((exec_new_ok s hok).symm.trans h)
    rfl
  | false =>
    obtain rfl := Host.Outcome.next.inj ((exec_new_error s hok).symm.trans h)
    cases hr

/-- At a completion FEED publishes the frame (R107). -/
theorem FrameDecoder.feed_completed_of_completion {d : FrameDecoder} {b : Byte} (now : Time)
    (h : d.feedArm b = .completion) :
    (d.feed b now).completed = some { payload := d.partialBytes ++ [b], completedAt := now } := by
  rw [FrameDecoder.feed_of_completion now h, FrameDecoder.complete_completed]

/-- Settles O45: one lemma for each row of R33's write matrix. -/
theorem operationsWriteOnlyWhatTheyOwn : Obligations.OperationsWriteOnlyWhatTheyOwn := by
  intro i s t h
  obtain ⟨htables, hpending⟩ := exec_keeps_tables_pending h
  refine ⟨htables, hpending, fun hi => exec_readOnly_writes_response hi h, ?feed, ?reset, ?new⟩
  case feed =>
    rintro b now rfl
    obtain ⟨d, hd, ht⟩ := exec_feed_next h
    exact ⟨d, d.feed b now, hd, ht, d.feed_spec b now, FrameDecoder.feed_completed_of_ne now,
      FrameDecoder.feed_completed_of_completion now⟩
  case reset =>
    rintro rfl
    exact exec_reset_next h
  case new =>
    rintro l hd rfl hr
    exact exec_new_constructed h hr

end Sys2Proof.Machine
end

section
/-! PROOFS. The stored payload and time are those of the last completion (spec/41_framing.md R107), so under the environment's
premise on `now` (spec/60_exceptions.md R153) the stored time never decreases (spec/10_state.md R25). -/

namespace Sys2Proof.Machine

/-- One byte at a time: what is stored afterwards is the last completion of the rest, or what this byte left. -/
theorem FrameDecoder.feedAll_completed (d : FrameDecoder) (fs : List (Byte × Time)) :
    (d.feedAll fs).completed = ((d.completionsOf fs).getLast?).or d.completed := by
  induction fs generalizing d with
  | nil => rfl
  | cons f fs ih =>
    obtain ⟨b, now⟩ := f
    rw [FrameDecoder.feedAll_cons, ih]
    by_cases h : d.feedArm b = .completion
    · rw [FrameDecoder.completionsOf_cons_of_completion now fs h, FrameDecoder.feed_completed_of_completion now h,
        List.getLast?_cons]
      cases ((d.feed b now).completionsOf fs).getLast? <;> rfl
    · rw [FrameDecoder.completionsOf_cons_of_ne now fs h, FrameDecoder.feed_completed_of_ne now h]

/-- The times a decoder stores while a sequence is fed, oldest first: the one it holds, then those of the completions. -/
def FrameDecoder.storedTimes (d : FrameDecoder) (fs : List (Byte × Time)) : List Time :=
  d.lastCompletedAt.toList ++ (d.completionsOf fs).map Completion.completedAt

theorem FrameDecoder.timesNonDecreasing_iff (d : FrameDecoder) (fs : List (Byte × Time)) :
    d.TimesNonDecreasing fs ↔ (d.storedTimes fs).Pairwise (· ≤ ·) := Iff.rfl

theorem FrameDecoder.storedTimes_append (d : FrameDecoder) (fs gs : List (Byte × Time)) :
    d.storedTimes (fs ++ gs) =
      d.storedTimes fs ++ ((d.feedAll fs).completionsOf gs).map Completion.completedAt := by
  simp [FrameDecoder.storedTimes, FrameDecoder.completionsOf_append]

/-- The time stored after a sequence is the last of the stored times. -/
theorem FrameDecoder.feedAll_lastCompletedAt (d : FrameDecoder) (fs : List (Byte × Time)) :
    (d.feedAll fs).lastCompletedAt = (d.storedTimes fs).getLast? := by
  simp only [FrameDecoder.lastCompletedAt, FrameDecoder.storedTimes, FrameDecoder.feedAll_completed,
    List.getLast?_append, List.getLast?_map, Option.map_or]
  cases d.completed <;> rfl

/-- In a non-decreasing list the last element is at least the last element of any initial part. -/
theorem getLast?_le_getLast?_append {xs ys : List Time} {t u : Time} (h : (xs ++ ys).Pairwise (· ≤ ·))
    (ht : xs.getLast? = some t) (hu : (xs ++ ys).getLast? = some u) : t ≤ u := by
  rw [List.getLast?_append, ht] at hu
  cases hy : ys.getLast? with
  | none =>
    rw [hy] at hu
    exact (Option.some.inj hu).le
  | some v =>
    rw [hy] at hu
    obtain rfl : v = u := Option.some.inj hu
    obtain ⟨-, -, hcross⟩ := List.pairwise_append.1 h
    exact hcross t (List.mem_of_getLast? ht) v (List.mem_of_getLast? hy)

/-- Settles O27: the two stored times are the last elements of a non-decreasing list and of an initial part of it. -/
theorem lastCompletedAtNeverDecreases : Obligations.LastCompletedAtNeverDecreases := by
  intro d fs gs t u htimes ht hu
  rw [FrameDecoder.timesNonDecreasing_iff, FrameDecoder.storedTimes_append] at htimes
  rw [FrameDecoder.feedAll_lastCompletedAt] at ht
  rw [FrameDecoder.feedAll_lastCompletedAt, FrameDecoder.storedTimes_append] at hu
  exact getLast?_le_getLast?_append htimes ht hu

end Sys2Proof.Machine
end

section
/-! PROOFS. FEED on the byte spaces, byte by byte (spec/20_memory.md R41 to R43, R50, R52). -/

namespace Sys2Proof.Machine

/-! ### What each space reads -/

@[simp] theorem FrameDecoder.readByte_header (d : FrameDecoder) (a : Nat) : d.readByte .header a = d.spec.header[a]? := rfl

@[simp] theorem FrameDecoder.readByte_partialSpace (d : FrameDecoder) (a : Nat) :
    d.readByte .partialSpace a = d.partialBytes[a]? := rfl

@[simp] theorem FrameDecoder.readByte_payload (d : FrameDecoder) (a : Nat) :
    d.readByte .payload a = d.lastPayload[a]? := rfl

/-! ### A byte stored at address `fill` -/

/-- Putting a byte behind PARTIAL stores it at address `fill`: below it the old bytes stand, above it nothing is read. -/
theorem FrameDecoder.partialBytes_concat_getElem? (d : FrameDecoder) (b : Byte) :
    (d.partialBytes ++ [b])[d.storeAddress]? = some b ∧
    ∀ a, a ≠ d.storeAddress → (d.partialBytes ++ [b])[a]? = d.partialBytes[a]? := by
  refine ⟨List.getElem?_concat_length, fun a hne => ?_⟩
  rcases Nat.lt_or_gt_of_ne hne with hlt | hgt
  · exact List.getElem?_append_left hlt
  · have hend : d.partialBytes.length < a := hgt
    rw [List.getElem?_eq_none hend.le, List.getElem?_eq_none (by simpa using hend)]

/-! ### The spaces after FEED -/

section Feed
variable {d : FrameDecoder} {b : Byte} (now : Time)

/-- Both accepting arms that do not complete a frame append the byte (R104, R106). -/
theorem FrameDecoder.feed_partialBytes_of_accept (h : d.feedArm b = .headerMatch ∨ d.feedArm b = .bodyByte) :
    (d.feed b now).partialBytes = d.partialBytes ++ [b] := by
  rcases h with h | h
  · rw [FrameDecoder.feed_of_headerMatch now h, FrameDecoder.matchHeader_partialBytes]
  · rw [FrameDecoder.feed_of_bodyByte now h, FrameDecoder.appendBody_partialBytes]

/-- A mismatch and a completion both end the attempt (R105, R107). -/
theorem FrameDecoder.feed_partialBytes_of_end (h : d.feedArm b = .headerMismatch ∨ d.feedArm b = .completion) :
    (d.feed b now).partialBytes = [] := by
  rcases h with h | h
  · rw [FrameDecoder.feed_of_headerMismatch now h, FrameDecoder.dropAttempt_partialBytes]
  · rw [FrameDecoder.feed_of_completion now h, FrameDecoder.complete_partialBytes]

theorem FrameDecoder.feed_lastPayload_of_completion (h : d.feedArm b = .completion) :
    (d.feed b now).lastPayload = d.partialBytes ++ [b] :=
  FrameDecoder.lastPayload_of_some (FrameDecoder.feed_completed_of_completion now h)

end Feed

/-- Presence, payload and time are all read from `completed` (R24, R25). -/
theorem FrameDecoder.payload_congr {d e : FrameDecoder} (h : d.completed = e.completed) :
    d.lastPayload = e.lastPayload ∧ d.havePayload = e.havePayload ∧ d.lastCompletedAt = e.lastCompletedAt := by
  simp only [FrameDecoder.lastPayload, FrameDecoder.havePayload, FrameDecoder.lastCompletedAt, h, and_self]

/-- Settles O18: HEADER is in the configuration, PARTIAL and, at a completion, PAYLOAD are the old PARTIAL with the byte put
behind it, or PARTIAL is empty. -/
theorem feedStoresOneByteAtFill : Obligations.FeedStoresOneByteAtFill := by
  intro s d b now hd _
  refine ⟨d.feed b now, exec_feed_eq hd b now, ?header, ?stored, ?emptied, ?kept, ?published⟩
  case header =>
    intro a
    simp only [FrameDecoder.readByte_header, FrameDecoder.feed_spec]
  case stored =>
    intro harm
    simp only [FrameDecoder.readByte_partialSpace, FrameDecoder.feed_partialBytes_of_accept now harm]
    exact d.partialBytes_concat_getElem? b
  case emptied =>
    intro harm a
    rw [FrameDecoder.readByte_partialSpace, FrameDecoder.feed_partialBytes_of_end now harm, List.getElem?_nil]
  case kept =>
    intro harm
    obtain ⟨hpayload, hhave, htime⟩ := FrameDecoder.payload_congr (FrameDecoder.feed_completed_of_ne now harm)
    exact ⟨fun a => by simp only [FrameDecoder.readByte_payload, hpayload], hhave, htime⟩
  case published =>
    intro harm
    simp only [FrameDecoder.readByte_payload, FrameDecoder.readByte_partialSpace,
      FrameDecoder.feed_lastPayload_of_completion now harm]
    exact d.partialBytes_concat_getElem? b

end Sys2Proof.Machine
end

section
/-! PROOFS. The configuration is written by NEW only (spec/20_memory.md R57). -/

namespace Sys2Proof.Machine

/-- FEED and RESET write other fields of the decoder, the rest none of it. -/
theorem exec_keeps_spec {i : Instr} {s t : State} {d : FrameDecoder} (hi : ∀ l h, i ≠ .new l h) (hd : s.decoder = some d)
    (h : exec i s = .next t) : ∃ d', t.decoder = some d' ∧ d'.spec = d.spec := by
  rcases exec_next_cases h with ⟨l, hdr, hnew, -⟩ | ⟨l, hdr, hnew, -⟩ | ⟨e, he, hcase⟩
  · exact absurd hnew (hi l hdr)
  · exact absurd hnew (hi l hdr)
  · obtain rfl : e = d := Option.some.inj (he.symm.trans hd)
    rcases hcase with ⟨b, now, -, rfl⟩ | ⟨-, rfl⟩ | ⟨-, rfl⟩
    · exact ⟨e.feed b now, rfl, e.feed_spec b now⟩
    · exact ⟨.fresh e.spec, rfl, FrameDecoder.fresh_spec e.spec⟩
    · exact ⟨e, hd, rfl⟩

/-- Settles O46: taking a presentation writes neither the decoder nor the tables, and the operation it decodes to keeps
`FrameSpec` and the tables. -/
theorem configurationIsImmutable : Obligations.ConfigurationIsImmutable := by
  intro s t d hd hstep hnew
  obtain ⟨i, hdec, hexec⟩ := step_next hstep
  obtain ⟨htables, -⟩ := exec_keeps_tables_pending hexec
  exact ⟨htables.trans s.takePresentation_tables,
    exec_keeps_spec (hnew i hdec) (s.takePresentation_decoder.trans hd) hexec⟩

end Sys2Proof.Machine
end

section
/-! PROOFS. Operations and the ports that present them (spec/30_encoding.md R70 to R72, R79): ports of any widths lose nothing
of an operation that fits them, and decoding reads the ports its op code uses and no other. -/

namespace Sys2Proof

/-! ### The encoder -/

/-- The presentation of an operation fits the ports exactly when each operand fits its own port (R71). -/
theorem drive_fits_iff (W : PortWidths) (i : Instr) : (drive i).fits W = true ↔ i.wellFormed W = true := by
  rw [Presentation.fits_iff]
  cases i <;> simp [drive, Presentation.ofOp, Instr.wellFormed, and_assoc]

/-- Ports lose no bit of a presentation that fits them. -/
theorem Presentation.sample_of_fits {W : PortWidths} {p : Presentation} (h : p.fits W = true) : p.sample W = p :=
  of_decide_eq_true h

theorem encode_of_wellFormed {W : PortWidths} {i : Instr} (h : i.wellFormed W = true) : encode W i = drive i :=
  Presentation.sample_of_fits ((drive_fits_iff W i).2 h)

/-- Settles O3: the ports carry a well-formed operation's presentation unchanged, and it decodes to the operation. -/
theorem decodeEncodeRoundTrip : Obligations.DecodeEncodeRoundTrip := by
  intro W i h
  rw [encode_of_wellFormed h]
  exact ⟨decode_drive i, (drive_fits_iff W i).2 h⟩

/-! ### The decoder -/

/-- Settles O2: below 0xB each code reaches its own arm of `decode`, and the codes above reach the last. -/
theorem opCodeSelectsOperation : Obligations.OpCodeSelectsOperation := by
  intro p
  refine ⟨?_, ?_, ?_, ?_, ?_, ?_, ?_, ?_, ?_, ?_, ?_, decode_of_reserved⟩
  all_goals
    intro hop
    rw [decode, hop]
    rfl

/-- The eleven codes of R70 all select an operation. -/
theorem exists_decode_of_not_reserved {p : Presentation} (h : ¬ 0xB ≤ p.op.toNat) : ∃ i, decode p = .ok i := by
  have hlt : p.op.toNat < 0xB := Nat.lt_of_not_le h
  unfold decode
  interval_cases p.op.toNat <;> exact ⟨_, rfl⟩

theorem decode_usedPorts (p : Presentation) : decode p.usedPorts = decode p := by
  by_cases hres : 0xB ≤ p.op.toNat
  · rw [decode_of_reserved hres, decode_of_reserved (by rwa [p.usedPorts_op]), p.usedPorts_op]
  · obtain ⟨i, hi⟩ := exists_decode_of_not_reserved hres
    rw [Presentation.usedPorts_of_decode hi, decode_drive, hi]

/-- Clearing ports keeps a presentation within its widths. -/
theorem Presentation.usedPorts_fits {W : PortWidths} {p : Presentation} (h : p.fits W = true) :
    p.usedPorts.fits W = true := by
  rw [Presentation.fits_iff] at h ⊢
  obtain ⟨hnow, hflags, hpos, hts⟩ := h
  unfold Presentation.usedPorts
  split <;> simp [Presentation.ofOp, hnow, hflags, hpos, hts]

/-- Settles O4: the used ports are the presentation of the decoded operation, so they decode to it, and where they fit it is
well formed and encoded by them. -/
theorem encodeDecodeUsedPorts : Obligations.EncodeDecodeUsedPorts := by
  refine ⟨fun W p i hfits hdec => ?encoded, decode_usedPorts, fun p q h => ?ignored⟩
  case encoded =>
    have hused : p.usedPorts = drive i := Presentation.usedPorts_of_decode hdec
    have hwf : i.wellFormed W = true := (drive_fits_iff W i).1 (hused ▸ Presentation.usedPorts_fits hfits)
    exact ⟨hwf, by rw [encode_of_wellFormed hwf, hused]⟩
  case ignored =>
    calc decode p = decode p.usedPorts := (decode_usedPorts p).symm
      _ = decode q.usedPorts := by rw [h]
      _ = decode q := decode_usedPorts q

end Sys2Proof
end

section
/-! PROOFS. The responses of the operations and the result ports they drive (spec/30_encoding.md R73 to R78). -/

namespace Sys2Proof.Machine

/-! ### Ranges of a response -/

/-- Only VALUE answers a value, and only IS_SET's error carries information. -/
theorem readOnlyAnswer_inRange (i : Instr) (d : FrameDecoder) (T : Tables) : (readOnlyAnswer i d T).InRange := by
  cases h : readOnlyAnswer i d T with
  | ok r =>
    cases r with
    | value sm dp =>
      obtain ⟨sm', dp', heq, hlo, hhi⟩ := FrameDecoder.value_ok_range (readOnlyAnswer_value h)
      cases heq
      exact ⟨hlo, hhi⟩
    | _ => trivial
  | err e =>
    obtain ⟨hkind, hinfo⟩ := readOnlyAnswer_error h
    intro hsome
    obtain ⟨flags, pos, rfl⟩ := hinfo.1 hsome
    cases hk : e.kind with
    | outOfRange => rfl
    | _ => rw [hk] at hkind; cases hkind

theorem exec_inRange {i : Instr} {s t : State} (h : exec i s = .next t) : t.response.InRange := by
  rcases exec_next_cases h with ⟨l, hd, -, -, rfl⟩ | ⟨l, hd, -, -, rfl⟩ |
    ⟨d, -, ⟨b, now, -, rfl⟩ | ⟨-, rfl⟩ | ⟨-, rfl⟩⟩
  · trivial
  · intro hsome
    cases hsome
  · trivial
  · trivial
  · exact readOnlyAnswer_inRange i d s.tables

/-- Settles O44: the response of a step is that of the operation it decoded. -/
theorem stepAnswersInRange : Obligations.StepAnswersInRange := by
  intro s t h
  obtain ⟨i, -, hexec⟩ := step_next h
  exact exec_inRange hexec

/-! ### All that each operation can answer -/

theorem bitIsSet_answer (flags : Nat) (pos : Int) :
    (∃ b, bitIsSet flags pos = .ok b) ∨
    bitIsSet flags pos = .error (errBit { pos := pos, flags := flags, bitlen := bitLength flags }) := by
  cases h : bitIsSet flags pos with
  | ok b => exact .inl ⟨b, rfl⟩
  | error e => rw [bitIsSet_error h]; exact .inr rfl

theorem FrameDecoder.mode_answer (d : FrameDecoder) (T : Tables) :
    (∃ l, d.mode T = .ok (.mode l)) ∨ d.mode T = .error errPayload := by
  cases h : d.mode T with
  | ok r => obtain ⟨l, rfl⟩ := FrameDecoder.mode_ok_shape h; exact .inl ⟨l, rfl⟩
  | error e => rw [FrameDecoder.mode_error h]; exact .inr rfl

theorem FrameDecoder.decimalPlaces_answer (d : FrameDecoder) :
    (∃ dp, d.decimalPlaces = .ok (.decimalPlaces dp)) ∨ d.decimalPlaces = .error errPayload := by
  cases h : d.decimalPlaces with
  | ok r => obtain ⟨dp, rfl⟩ := FrameDecoder.decimalPlaces_ok_shape h; exact .inl ⟨dp, rfl⟩
  | error e => rw [FrameDecoder.decimalPlaces_error h]; exact .inr rfl

/-- A value VALUE answers is the one its 20-bit port carries (R77). -/
theorem FrameDecoder.value_answer (d : FrameDecoder) :
    (∃ sm dp, d.value = .ok (.value sm dp) ∧ (valSmPort sm).toInt = sm) ∨
    d.value = .error errPayload ∨ d.value = .error errOverload := by
  cases h : d.value with
  | ok r =>
    obtain ⟨sm, dp, rfl, hlo, hhi⟩ := FrameDecoder.value_ok_range h
    exact .inl ⟨sm, dp, rfl, valSmPort_toInt hlo hhi⟩
  | error e =>
    rcases FrameDecoder.value_error h with rfl | rfl
    · exact .inr (.inl rfl)
    · exact .inr (.inr rfl)

theorem FrameDecoder.units_answer (d : FrameDecoder) (T : Tables) :
    (∃ p u, d.units T = .ok (.units p u)) ∨ d.units T = .error errPayload ∨ d.units T = .error errUnits := by
  cases h : d.units T with
  | ok r => obtain ⟨p, u, rfl⟩ := FrameDecoder.units_ok_shape h; exact .inl ⟨p, u, rfl⟩
  | error e =>
    rcases FrameDecoder.units_error h with rfl | rfl
    · exact .inr (.inl rfl)
    · exact .inr (.inr rfl)

/-- The payload has `L` bytes once a frame is completed (INV5), and before that none (R24). -/
theorem FrameDecoder.Inv.lastPayload_length {d : FrameDecoder} (hi : d.Inv) :
    d.lastPayload.length = if d.havePayload then d.frameLength else 0 := by
  cases hc : d.completed with
  | none => simp [FrameDecoder.lastPayload, FrameDecoder.havePayload, hc]
  | some c =>
    obtain ⟨hlen, -⟩ := hi.inv5 c hc
    simp [FrameDecoder.lastPayload, FrameDecoder.havePayload, hc, hlen]

theorem exec_readOnly_response {i : Instr} {s t : State} (hi : i.readOnly = true) (h : exec i s = .next t) :
    ∃ d, s.decoder = some d ∧ t.response = readOnlyAnswer i d s.tables := by
  rcases exec_next_cases h with ⟨l, hd, rfl, -, -⟩ | ⟨l, hd, rfl, -, -⟩ |
    ⟨d, hd, ⟨b, now, rfl, -⟩ | ⟨rfl, -⟩ | ⟨-, rfl⟩⟩
  · cases hi
  · cases hi
  · cases hi
  · cases hi
  · exact ⟨d, hd, rfl⟩

/-- IDLE, RESET and FEED have no result and no error. -/
theorem exec_response_done {i : Instr} {s t : State} (hi : i = .idle ∨ i = .reset ∨ ∃ b now, i = .feed b now)
    (h : exec i s = .next t) : t.response = .ok .done := by
  rcases hi with rfl | rfl | ⟨b, now, rfl⟩ <;> obtain ⟨d, -, rfl⟩ := State.withDecoder_next h <;> rfl

/-- NEW answers ConfigError exactly when it leaves no decoder (R100). -/
theorem exec_new_response {l : Int} {hd : List Byte} {s t : State} (h : exec (.new l hd) s = .next t) :
    t.response = if t.decoder = none then .err errConfig else .ok .constructed := by
  cases hok : frameSpecOk l hd with
  | true =>
    obtain rfl := Host.Outcome.next.inj ((exec_new_ok s hok).symm.trans h)
    exact (if_neg (Option.some_ne_none _)).symm
  | false =>
    obtain rfl := Host.Outcome.next.inj ((exec_new_error s hok).symm.trans h)
    rfl

/-! ### Result ports -/

/-- Settles O51: the ports of each answer its operation can give. -/
theorem resultPortsCarryTheAnswer : Obligations.ResultPortsCarryTheAnswer := by
  intro s t
  refine ⟨fun flags pos h => ?isSet, fun h => ?mode, fun h => ?decimalPlaces, fun h => ?value, fun h => ?units,
    fun h => ?rawPayload, fun ts h => ?hasNew, fun i hi h => ?done, fun l hdr h => ?new⟩
  case isSet =>
    obtain ⟨d, -, hr⟩ := exec_readOnly_response rfl h
    rw [hr, readOnlyAnswer]
    rcases bitIsSet_answer flags pos with ⟨b, hb⟩ | he
    · rw [hb]; exact .inl ⟨b, rfl, rfl⟩
    · rw [he]; exact .inr ⟨_, rfl, rfl⟩
  case mode =>
    obtain ⟨d, -, hr⟩ := exec_readOnly_response rfl h
    rw [hr, readOnlyAnswer]
    rcases d.mode_answer s.tables with ⟨l, hl⟩ | he
    · rw [hl]; exact .inl ⟨l, rfl, rfl⟩
    · rw [he]; exact .inr ⟨_, rfl, rfl⟩
  case decimalPlaces =>
    obtain ⟨d, -, hr⟩ := exec_readOnly_response rfl h
    rw [hr, readOnlyAnswer]
    rcases d.decimalPlaces_answer with ⟨dp, hdp⟩ | he
    · rw [hdp]; exact .inl ⟨dp, rfl, rfl⟩
    · rw [he]; exact .inr ⟨_, rfl, rfl⟩
  case value =>
    obtain ⟨d, -, hr⟩ := exec_readOnly_response rfl h
    rw [hr, readOnlyAnswer]
    rcases d.value_answer with ⟨sm, dp, hv, hport⟩ | he | he
    · rw [hv]; exact .inl ⟨sm, dp, valSmPort sm, rfl, hport, rfl⟩
    · rw [he]; exact .inr ⟨_, rfl, rfl⟩
    · rw [he]; exact .inr ⟨_, rfl, rfl⟩
  case units =>
    obtain ⟨d, -, hr⟩ := exec_readOnly_response rfl h
    rw [hr, readOnlyAnswer]
    rcases d.units_answer s.tables with ⟨p, u, hu⟩ | he | he
    · rw [hu]; exact .inl ⟨p, u, rfl, rfl⟩
    · rw [he]; exact .inr ⟨_, rfl, rfl⟩
    · rw [he]; exact .inr ⟨_, rfl, rfl⟩
  case rawPayload =>
    obtain ⟨d, hd, hr⟩ := exec_readOnly_response rfl h
    rw [hr]
    refine ⟨d.lastPayload, rfl, rfl, fun e he hi => ?_⟩
    obtain rfl : d = e := Option.some.inj (hd.symm.trans he)
    exact hi.lastPayload_length
  case hasNew =>
    obtain ⟨d, -, hr⟩ := exec_readOnly_response rfl h
    rw [hr, readOnlyAnswer, FrameDecoder.hasNewPayloadSince_eq]
    exact ⟨_, rfl, rfl⟩
  case done =>
    rw [exec_response_done hi h]
    rfl
  case new =>
    rw [exec_new_response h]
    split <;> rfl

end Sys2Proof.Machine
end

section
/-! PROOFS. The numbers and texts of the labels (spec/30_encoding.md R62, R65, R66, R73 to R76). A list that holds each label at
its number shows at once that the numbers are in range and tell the labels apart, and the spec's tables are the texts of it. -/

namespace Sys2Proof.Machine

/-! ### Numbered labels -/

/-- Each label stands in the list at its number. -/
def Numbers {α : Type} {n : Nat} (labels : List α) (number : α → BitVec n) : Prop :=
  ∀ a, labels[(number a).toNat]? = some a

section Numbered
variable {α β : Type} {n : Nat} {labels : List α} {number : α → BitVec n}

theorem Numbers.lt_length (h : Numbers labels number) (a : α) : (number a).toNat < labels.length :=
  (List.getElem?_eq_some_iff.1 (h a)).1

theorem Numbers.injective (h : Numbers labels number) : Function.Injective number := by
  intro a b hab
  have hsome : some a = some b := by rw [← h a, hab, h b]
  exact Option.some.inj hsome

/-- A table of texts holds a label's text at the label's number. -/
theorem Numbers.getElem?_map (h : Numbers labels number) (text : α → β) (a : α) :
    (labels.map text)[(number a).toNat]? = some (text a) := by
  rw [List.getElem?_map, h a, Option.map_some]

end Numbered

/-- The mode labels in the order of R74. -/
def modeLabels : List ModeLabel :=
  [.unknown, .known .vac, .known .vdc, .known .resistance, .known .capacitance, .known .temperature, .known .ampsDC,
    .known .mAmpsDC, .known .uAmpsDC, .known .ampsAC, .known .mAmpsAC, .known .uAmpsAC, .known .diodeTest,
    .known .frequency, .known .continuity]

/-- The unit labels in the order of R75. -/
def unitLabels : List UnitLabel :=
  [.volt, .amp, .ohms, .hertz, .farad, .ohmsContinuity, .voltDiodeTest, .degC, .degF, .percent]

/-- The SI labels in the order of R76. -/
def siLabels : List SiPrefix := [.empty, .kilo, .mega, .nano, .micro, .milli]

theorem numbers_modeId : Numbers modeLabels modeId := by
  intro l
  cases l with
  | unknown => rfl
  | known m => cases m <;> rfl

theorem numbers_unitId : Numbers unitLabels unitId := by
  intro u
  cases u <;> rfl

theorem numbers_prefixId : Numbers siLabels prefixId := by
  intro p
  cases p <;> rfl

/-! ### Status codes -/

theorem Response.ports_status (r : Response) : r.ports.status = r.status := by
  cases r with
  | ok v => cases v <;> rfl
  | err e => rfl

theorem ErrorKind.status_range (k : ErrorKind) : 1 ≤ k.status.toNat ∧ k.status.toNat ≤ 4 := by
  cases k <;> decide

theorem Response.status_le (r : Response) : r.status.toNat ≤ 4 := by
  cases r with
  | ok v => exact Nat.zero_le 4
  | err e => exact e.kind.status_range.2

/-- No error has status 0. -/
theorem Response.status_eq_zero_iff (r : Response) : r.status = 0 ↔ ∃ v, r = .ok v := by
  cases r with
  | ok v => exact ⟨fun _ => ⟨v, rfl⟩, fun _ => rfl⟩
  | err e =>
    refine ⟨fun h => ?_, fun ⟨v, hv⟩ => by cases hv⟩
    have hpos : 1 ≤ e.kind.status.toNat := e.kind.status_range.1
    have hzero : e.kind.status = 0 := h
    rw [hzero] at hpos
    cases hpos

/-- Settles O40: the labels stand at their numbers in the lists above, whose texts are the tables of R74 to R76. -/
theorem outputCodesAreInRangeAndDistinct : Obligations.OutputCodesAreInRangeAndDistinct := by
  refine ⟨fun r => ⟨r.ports_status, r.status_le, r.status_eq_zero_iff⟩, ⟨rfl, rfl, rfl, rfl⟩,
    fun l l' => ⟨numbers_modeId.lt_length l, fun h => numbers_modeId.injective h⟩,
    fun u u' => ⟨numbers_unitId.lt_length u, fun h => numbers_unitId.injective h⟩,
    fun p p' => ⟨numbers_prefixId.lt_length p, fun h => numbers_prefixId.injective h⟩,
    fun l => ⟨numbers_modeId.getElem?_map modeText l, fun h => h ▸ rfl, fun h => ?unknown⟩,
    numbers_unitId.getElem?_map unitText, numbers_prefixId.getElem?_map prefixText⟩
  case unknown => exact numbers_modeId.injective (h.trans (show 0 = modeId .unknown from rfl))

/-! ### The text of UNITS -/

/-- The characters of the SI labels (R66); no unit label begins with one of them. -/
def isSiChar (c : Char) : Bool := c ∈ ['k', 'M', 'n', 'u', 'm']

theorem prefixText_all_isSiChar (p : SiPrefix) : (prefixText p).toList.all isSiChar = true := by
  cases p <;> decide

theorem unitText_takeWhile (u : UnitLabel) : (unitText u).toList.takeWhile isSiChar = [] := by
  cases u <;> decide

/-- The SI label is what stands before the first character that is in none. -/
theorem unitsText_takeWhile (p : SiPrefix) (u : UnitLabel) :
    (unitsText p u).toList.takeWhile isSiChar = (prefixText p).toList := by
  rw [unitsText, String.toList_append, List.takeWhile_append_of_pos (List.all_eq_true.1 (prefixText_all_isSiChar p)),
    unitText_takeWhile, List.append_nil]

theorem prefixText_injective : Function.Injective prefixText := by
  have hplace : ∀ p, (siLabels.map prefixText).idxOf (prefixText p) = (prefixId p).toNat := by
    intro p
    cases p <;> decide
  intro p p' h
  exact numbers_prefixId.injective (BitVec.eq_of_toNat_eq (by rw [← hplace p, h, hplace p']))

theorem unitText_injective : Function.Injective unitText := by
  have hplace : ∀ u, (unitLabels.map unitText).idxOf (unitText u) = (unitId u).toNat := by
    intro u
    cases u <;> decide
  intro u u' h
  exact numbers_unitId.injective (BitVec.eq_of_toNat_eq (by rw [← hplace u, h, hplace u']))

/-- Settles O41: the leading characters of the text give the SI label, and what follows them gives the unit label. -/
theorem unitsTextDeterminesPair : Obligations.UnitsTextDeterminesPair := by
  intro p p' u u' h
  have hsi : (prefixText p).toList = (prefixText p').toList := by
    rw [← unitsText_takeWhile p u, h, unitsText_takeWhile]
  obtain rfl : p = p' := prefixText_injective (String.toList_injective hsi)
  have hunit : (unitText u).toList = (unitText u').toList := by
    apply List.append_cancel_left (as := (prefixText p).toList)
    simpa only [unitsText, String.toList_append] using congrArg String.toList h
  exact ⟨rfl, unitText_injective (String.toList_injective hunit)⟩

end Sys2Proof.Machine
end

section
/-! PROOFS. The BitFlagInspector (spec/40_bitflag.md R90 to R93): the bit length by the spec's decision D19, the answers of
IS_SET on both sides of its range guard, and the use inside VALUE. -/

namespace Sys2Proof.Machine

/-! ### The bit length -/

/-- `bit_length` is the least number of bits that holds the value. -/
theorem bitLength_le_iff (v n : Nat) : bitLength v ≤ n ↔ v < 2 ^ n := by
  rcases Nat.eq_zero_or_pos v with rfl | h
  · simp
  · rw [bitLength_of_pos h, Nat.succ_le_iff, Nat.log2_lt h.ne']

/-- The powers of two around a value determine its bit length (R91). -/
theorem eq_bitLength_of_two_pow_bounds {v n : Nat} (hle : 2 ^ (n - 1) ≤ v) (hlt : v < 2 ^ n) : n = bitLength v := by
  have hupper : bitLength v ≤ n := (bitLength_le_iff v n).2 hlt
  have hlower : ¬ bitLength v ≤ n - 1 := fun h => hle.not_gt ((bitLength_le_iff v (n - 1)).1 h)
  omega

theorem testBit_bitLength_sub_one {v : Nat} (h : 0 < v) : v.testBit (bitLength v - 1) = true := by
  rw [bitLength_of_pos h, Nat.add_sub_cancel]
  exact Nat.testBit_log2 h.ne'

theorem testBit_of_bitLength_le {v j : Nat} (h : bitLength v ≤ j) : v.testBit j = false :=
  Nat.testBit_lt_two_pow ((bitLength_le_iff v j).1 h)

/-- Settles O6: the bounds on the value, from which uniqueness and the two facts about its bits follow. -/
theorem bitLengthIsHighestSetBitPosition : Obligations.BitLengthIsHighestSetBitPosition :=
  ⟨bitLength_zero, fun v h => ⟨two_pow_le_of_bitLength h, lt_two_pow_bitLength v,
    fun _ => eq_bitLength_of_two_pow_bounds, testBit_bitLength_sub_one h, fun _ => testBit_of_bitLength_le⟩⟩

/-! ### The bit test -/

/-- Settles O5: the operation answers what the bit test does, which has one lemma for each of the three checks of R90; the
bit read is the arithmetic of R92. -/
theorem isSetAnswersBit : Obligations.IsSetAnswersBit := by
  refine ⟨fun p hop => ?decoded, fun s d flags pos hd => ⟨fun hzero => ?zero, fun hne hout => ?outOfRange,
    fun hne hnonneg hle => ?inRange⟩⟩
  case decoded =>
    obtain ⟨-, -, hisSet, -⟩ := opCodeSelectsOperation p
    exact hisSet hop
  case zero =>
    rw [exec_isSet_eq hd, hzero, bitIsSet_zero_flags]
    rfl
  case outOfRange =>
    rw [exec_isSet_eq hd, bitIsSet_outOfRange hne hout]
    rfl
  case inRange =>
    rw [exec_isSet_eq hd, bitIsSet_inRange hne hnonneg hle, Nat.testBit_eq_decide_div_mod_eq]
    rfl

/-- Settles O7: position 0 is in range for every byte, zero included, and the bit read there is the parity. -/
theorem signBitInspectionNeverFails : Obligations.SignBitInspectionNeverFails := by
  intro b
  rw [bitIsSet_pos_zero, Nat.testBit_zero]

end Sys2Proof.Machine
end

section
/-! PROOFS. Construction, reset and idling (spec/41_framing.md R100 to R102, R110). -/

namespace Sys2Proof.Machine

/-! ### NEW -/

/-- NEW fails exactly on a length below 1 or not above the header's (R100). -/
theorem frameSpecOk_eq_false_iff (l : Int) (hd : List Byte) :
    frameSpecOk l hd = false ↔ l < 1 ∨ l ≤ hd.length := by
  rw [← Bool.not_eq_true, frameSpecOk_iff]
  omega

/-- NEW has a meaning in every state: it constructs or raises. -/
theorem exec_new_ne_refused (l : Int) (hd : List Byte) (s : State) (r : Refusal) : exec (.new l hd) s ≠ .refused r := by
  intro h
  cases hok : frameSpecOk l hd with
  | true => cases (exec_new_ok s hok).symm.trans h
  | false => cases (exec_new_error s hok).symm.trans h

/-- Settles O8: the check of NEW is the rule's, and each outcome has its equation. -/
theorem newConstructsFreshOrConfigError : Obligations.NewConstructsFreshOrConfigError := by
  refine ⟨fun p hop => ?decoded, fun s l hd => ⟨fun hbad => ?failed, fun hpos hlong => ?constructed⟩⟩
  case decoded =>
    obtain ⟨-, -, -, -, -, -, -, -, -, hnew, -⟩ := opCodeSelectsOperation p
    exact hnew hop
  case failed => exact exec_new_error s ((frameSpecOk_eq_false_iff l hd).2 hbad)
  case constructed => exact exec_new_ok s ((frameSpecOk_iff l hd).2 ⟨hpos, hlong⟩)

/-- Settles O12: NEW is never refused, and without a decoder the rest have nothing to run on. -/
theorem withoutInstanceOnlyNewRuns : Obligations.WithoutInstanceOnlyNewRuns := by
  refine fun s i hd => ⟨?_, exec_without_instance hd i⟩
  rintro h l header rfl
  exact exec_new_ne_refused l header s .noInstance h

/-! ### RESET -/

/-- Settles O9: RESET leaves the Fresh decoder of the same `FrameSpec`. -/
theorem resetReturnsToFresh : Obligations.ResetReturnsToFresh := by
  refine ⟨fun p hop => ?_, fun s d hd => exec_reset_eq hd⟩
  obtain ⟨-, -, -, -, -, -, -, -, -, -, hreset, -⟩ := opCodeSelectsOperation p
  exact hreset hop

/-! ### IDLE -/

/-- Each step without a call answers OK and leaves a state that again has no call, so the run stays where its first step
ends (R110). -/
theorem run_succ_of_no_pending {s : State} {d : FrameDecoder} (hd : s.decoder = some d) (hp : s.pending = []) (k : Nat) :
    Host.Core.run Sys2Proof.core (k + 1) s = .next { s with response := .ok .done } := by
  have hstep : ∀ {u : State}, u.decoder = some d → u.pending = [] → step u = .next { u with response := .ok .done } :=
    fun hdu hpu => (step_of_no_pending hpu).trans (exec_idle_eq hdu)
  induction k generalizing s with
  | zero => exact run_succ_of_next 0 (hstep hd hp)
  | succ k ih => exact (run_succ_of_next (k + 1) (hstep hd hp)).trans (ih hd hp)

/-- Settles O10: IDLE writes its response only, and a step without a call is IDLE. -/
theorem idleHoldsStateForever : Obligations.IdleHoldsStateForever := by
  refine ⟨fun p hop => ?_, fun s d hd => exec_idle_eq hd, fun s d k hd hp => run_succ_of_no_pending hd hp k⟩
  obtain ⟨hidle, -⟩ := opCodeSelectsOperation p
  exact hidle hop

end Sys2Proof.Machine
end

section
/-! PROOFS. The four arms of FEED (spec/41_framing.md R103 to R109). -/

namespace Sys2Proof.Machine

section Feed
variable {s : State} {d : FrameDecoder} {b : Byte} (now : Time)

/-! ### FEED in each arm -/

theorem exec_feed_of_headerMatch (hd : s.decoder = some d) (h : d.feedArm b = .headerMatch) :
    exec (.feed b now) s = .next { s with decoder := some (d.matchHeader b), response := .ok .done } := by
  rw [exec_feed_eq hd, FrameDecoder.feed_of_headerMatch now h]

theorem exec_feed_of_headerMismatch (hd : s.decoder = some d) (h : d.feedArm b = .headerMismatch) :
    exec (.feed b now) s = .next { s with decoder := some d.dropAttempt, response := .ok .done } := by
  rw [exec_feed_eq hd, FrameDecoder.feed_of_headerMismatch now h]

theorem exec_feed_of_bodyByte (hd : s.decoder = some d) (h : d.feedArm b = .bodyByte) :
    exec (.feed b now) s = .next { s with decoder := some (d.appendBody b), response := .ok .done } := by
  rw [exec_feed_eq hd, FrameDecoder.feed_of_bodyByte now h]

theorem exec_feed_of_completion (hd : s.decoder = some d) (h : d.feedArm b = .completion) :
    exec (.feed b now) s = .next { s with decoder := some (d.complete b now), response := .ok .done } := by
  rw [exec_feed_eq hd, FrameDecoder.feed_of_completion now h]

end Feed

/-! ### Header bytes -/

theorem FrameDecoder.phase_of_cursor_eq {d : FrameDecoder} (h : d.cursor = d.headerLength) : d.phase = .payloadFill :=
  if_neg h.not_lt

/-- Settles O13: in the header `fill` and the cursor are equal (INV2), and both grow by one. -/
theorem feedHeaderMatchAdvancesCursor : Obligations.FeedHeaderMatchAdvancesCursor := by
  intro s d b now hd hc hb
  have harm : d.feedArm b = .headerMatch := FrameDecoder.feedArm_headerMatch_iff.2 ⟨hc, hb⟩
  refine ⟨d.matchHeader b, rfl, exec_feed_of_headerMatch now hd harm, rfl, FrameDecoder.phase_of_cursor_eq,
    fun hi => ⟨?_, hc, hi.valid.longer⟩⟩
  have hfill : d.partialBytes.length = d.cursor := hi.inv2 hc
  rw [FrameDecoder.fill, FrameDecoder.matchHeader_partialBytes, List.length_append, hfill]
  rfl

/-- Between frames a header that is not empty has no byte matched, so there is nothing to drop. -/
theorem FrameDecoder.Inv.dropAttempt_eq_self {d : FrameDecoder} (hi : d.Inv) (hc : d.cursor = 0)
    (hn : d.cursor < d.headerLength) : d.dropAttempt = d := by
  have hp : d.partialBytes = [] := List.eq_nil_of_length_eq_zero ((hi.inv2 hn).trans hc)
  unfold FrameDecoder.dropAttempt
  rw [← hc, ← hp]

/-- Settles O14: the attempt is dropped, and between frames there is none. -/
theorem feedHeaderMismatchDropsAttempt : Obligations.FeedHeaderMismatchDropsAttempt := by
  intro s d b now hd hc hb
  have hexec := exec_feed_of_headerMismatch now hd (FrameDecoder.feedArm_headerMismatch_iff.2 ⟨hc, hb⟩)
  refine ⟨hexec, fun hi h0 => ?_⟩
  rw [hexec, hi.dropAttempt_eq_self h0 hc, ← hd]

/-! ### Body bytes -/

/-- Settles O15: the arm is chosen by the two counters, whatever the byte. -/
theorem feedBodyByteAppends : Obligations.FeedBodyByteAppends := by
  intro s d b now hd hc hf
  exact exec_feed_of_bodyByte now hd (FrameDecoder.feedArm_bodyByte_iff.2 ⟨hc.ge, hf⟩)

theorem FrameDecoder.Inv.fill_lt_frameLength {d : FrameDecoder} (hi : d.Inv) : d.fill < d.frameLength :=
  Nat.lt_of_le_pred hi.valid.positive hi.inv7

/-- Settles O16: the counters choose the arm that publishes the frame, and INV7 keeps `fill` below `L`. -/
theorem feedCompletionPublishesFrame : Obligations.FeedCompletionPublishesFrame := by
  intro s d b now hd hc hf
  refine ⟨exec_feed_of_completion now hd (FrameDecoder.feedArm_completion_iff.2 ⟨hc.ge, hf.ge⟩), ?_,
    fun e hi _ => hi.fill_lt_frameLength⟩
  rw [List.length_append]
  exact hf

/-! ### All four arms -/

/-- Settles O17: under the invariant the condition of an arm is that FEED takes it, and FEED takes one arm. -/
theorem feedNeverFails : Obligations.FeedNeverFails := by
  refine ⟨fun p hop => ?decoded, fun s d b now hd => ⟨d.feed b now, exec_feed_eq hd b now, d.feed_spec b now,
    fun hi => ⟨hi.feed b now, (existsUnique_congr fun a => ?arm).2 (existsUnique_eq' (a' := d.feedArm b))⟩⟩⟩
  case decoded =>
    obtain ⟨-, hfeed, -⟩ := opCodeSelectsOperation p
    exact hfeed hop
  case arm =>
    cases a with
    | headerMatch => exact FrameDecoder.feedArm_headerMatch_iff.symm
    | headerMismatch => exact FrameDecoder.feedArm_headerMismatch_iff.symm
    | bodyByte => exact hi.feedArm_bodyByte_iff.symm
    | completion => exact hi.feedArm_completion_iff.symm

end Sys2Proof.Machine
end

section
/-! PROOFS. Runs of FEED (spec/41_framing.md R112 to R116). The cursor is a function of the bytes accepted so far, so a decoder
in an attempt is its configuration and its completion with those bytes: `FrameDecoder.attempt`. -/

namespace Sys2Proof.Machine

/-! ### Presented FEEDs and the fold -/

/-- The run over presented FEEDs is the fold of FEED, and an empty run keeps the response. -/
theorem run_feedPresentations {s : State} {d : FrameDecoder} {fs : List (Byte × Time)} {rest : List Presentation}
    (hd : s.decoder = some d) (hp : s.pending = feedPresentations fs ++ rest) :
    Host.Core.run Sys2Proof.core fs.length s = .next { s with
      decoder := some (d.feedAll fs), pending := rest, response := if fs = [] then s.response else .ok .done } := by
  induction fs generalizing s d with
  | nil =>
    obtain ⟨decoder, tables, pending, response⟩ := s
    obtain rfl : decoder = some d := hd
    obtain rfl : pending = rest := hp
    rfl
  | cons f fs ih =>
    have hstep : step s = .next { s with
        decoder := some (d.feed f.1 f.2), pending := feedPresentations fs ++ rest, response := .ok .done } :=
      (step_of_pending hp (decode_drive (.feed f.1 f.2))).trans
        (exec_feed_eq (s := { s with pending := feedPresentations fs ++ rest }) hd f.1 f.2)
    refine (run_succ_of_next fs.length hstep).trans ((ih rfl rfl).trans ?_)
    rw [if_neg (List.cons_ne_nil f fs), ite_self]
    rfl

/-- Settles O20: the run is the fold over `fs ++ gs`, and the fold goes through `fs` first. -/
theorem fedRunIsChunkingIndependentFold : Obligations.FedRunIsChunkingIndependentFold := by
  intro s d fs gs rest hd hp hne
  rw [← List.length_append, run_feedPresentations hd hp, FrameDecoder.feedAll_append, if_neg hne]

/-! ### What the fold completes -/

/-- Settles O26: by induction on the bytes fed (`feedAll_completed`). -/
theorem lastPayloadIsLastCompletion : Obligations.LastPayloadIsLastCompletion :=
  FrameDecoder.feedAll_completed

/-! ### Noise -/

/-- Settles O22: between frames a byte that is not `H[0]` is dropped and leaves the decoder as it was. -/
theorem noiseWithoutHeaderStartIsHarmless : Obligations.NoiseWithoutHeaderStartIsHarmless := by
  intro d fs h0 hi hc hh hfs
  have hn : d.cursor < d.headerLength := by
    obtain ⟨hlt, -⟩ := List.getElem?_eq_some_iff.1 hh
    rwa [hc]
  induction fs with
  | nil => exact ⟨rfl, rfl⟩
  | cons f fs ih =>
    obtain ⟨hf, hrest⟩ := List.forall_mem_cons.1 hfs
    have harm : d.feedArm f.1 = .headerMismatch :=
      FrameDecoder.feedArm_headerMismatch_iff.2 ⟨hn, by rw [hc, hh]; exact fun h => hf (Option.some.inj h).symm⟩
    have hfeed : d.feed f.1 f.2 = d := by
      rw [FrameDecoder.feed_of_headerMismatch f.2 harm, hi.dropAttempt_eq_self hc hn]
    rw [FrameDecoder.feedAll_cons, FrameDecoder.completionsOf_cons_of_ne f.2 fs (by rw [harm]; decide), hfeed]
    exact ih hrest

/-! ### An attempt -/

/-- The decoder that has accepted the bytes `p` of a frame: the cursor counts those that fall in the header. -/
def FrameDecoder.attempt (d : FrameDecoder) (p : List Byte) : FrameDecoder :=
  { d with cursor := min p.length d.headerLength, partialBytes := p }

section Attempt
variable {d : FrameDecoder} {p : List Byte} {b : Byte} (t : Time)

/-- By INV4 a decoder is in the attempt its `partial` shows. -/
theorem FrameDecoder.Inv.attempt_partialBytes (hi : d.Inv) : d.attempt d.partialBytes = d := by
  obtain ⟨hcursor, -⟩ := hi.inv4
  unfold FrameDecoder.attempt
  rw [← hcursor]

/-- A decoder with nothing accepted is in the empty attempt. -/
theorem FrameDecoder.attempt_nil_eq_self (hc : d.cursor = 0) (hp : d.partialBytes = []) : d.attempt [] = d := by
  unfold FrameDecoder.attempt
  rw [List.length_nil, Nat.zero_min, ← hc, ← hp]

/-- A byte that is not the last and agrees with the header is accepted, in the header or in the body. -/
theorem FrameDecoder.attempt_feed_accept {r : List Byte} (hlen : p.length + 1 < d.frameLength)
    (hh : d.header <+: p ++ b :: r) :
    (d.attempt p).feedArm b ≠ .completion ∧ (d.attempt p).feed b t = d.attempt (p ++ [b]) := by
  rcases Nat.lt_or_ge p.length d.headerLength with hn | hn
  · have hcursor : (d.attempt p).cursor = p.length := min_eq_left hn.le
    have harm : (d.attempt p).feedArm b = .headerMatch := by
      refine FrameDecoder.feedArm_headerMatch_iff.2 ⟨hcursor.trans_lt hn, ?_⟩
      have hb : (p ++ b :: r)[p.length]? = some d.header[p.length] := List.prefix_iff_getElem?.1 hh p.length hn
      rw [List.getElem?_append_right le_rfl, Nat.sub_self] at hb
      rw [hcursor]
      exact (List.getElem?_eq_getElem hn).trans hb.symm
    have hnext : min (p ++ [b]).length d.headerLength = min p.length d.headerLength + 1 := by
      rw [List.length_append, List.length_singleton]; omega
    refine ⟨by rw [harm]; decide, ?_⟩
    rw [FrameDecoder.feed_of_headerMatch t harm, FrameDecoder.attempt, FrameDecoder.attempt, hnext]
    rfl
  · have harm : (d.attempt p).feedArm b = .bodyByte :=
      FrameDecoder.feedArm_bodyByte_iff.2 ⟨(min_eq_right hn).ge, hlen⟩
    have hnext : min (p ++ [b]).length d.headerLength = min p.length d.headerLength := by
      rw [List.length_append, List.length_singleton]; omega
    refine ⟨by rw [harm]; decide, ?_⟩
    rw [FrameDecoder.feed_of_bodyByte t harm, FrameDecoder.attempt, FrameDecoder.attempt, hnext]
    rfl

/-- The byte that makes `L` completes the frame. -/
theorem FrameDecoder.attempt_feed_last (hv : d.spec.Valid) (hlen : p.length + 1 = d.frameLength) :
    (d.attempt p).feedArm b = .completion ∧ (d.attempt p).feed b t = { d with
      completed := some { payload := p ++ [b], completedAt := t }, cursor := 0, partialBytes := [] } := by
  have hn : d.headerLength ≤ p.length := Nat.le_of_lt_succ (hv.longer.trans_eq hlen.symm)
  have harm : (d.attempt p).feedArm b = .completion :=
    FrameDecoder.feedArm_completion_iff.2 ⟨(min_eq_right hn).ge, hlen.ge⟩
  exact ⟨harm, FrameDecoder.feed_of_completion t harm⟩

/-- Bytes that agree with the header and leave the frame unfinished are all accepted, and complete nothing. -/
theorem FrameDecoder.attempt_feedAll_accept {fs : List (Byte × Time)} {r : List Byte}
    (hlen : p.length + fs.length < d.frameLength) (hh : d.header <+: p ++ (fs.map Prod.fst ++ r)) :
    (d.attempt p).completionsOf fs = [] ∧ (d.attempt p).feedAll fs = d.attempt (p ++ fs.map Prod.fst) := by
  induction fs generalizing p with
  | nil => exact ⟨rfl, by rw [List.map_nil, List.append_nil]; rfl⟩
  | cons f fs ih =>
    rw [List.length_cons] at hlen
    obtain ⟨harm, hfeed⟩ := d.attempt_feed_accept f.2 (by omega) hh
    rw [FrameDecoder.completionsOf_cons_of_ne f.2 fs harm, FrameDecoder.feedAll_cons, hfeed, List.map_cons,
      List.append_cons p f.1 (fs.map Prod.fst)]
    refine ih ?_ ?_
    · rw [List.length_append, List.length_singleton]; omega
    · rwa [List.append_assoc]

/-- A whole frame: with the last byte the attempt's only completion is all its bytes, and the search starts again. -/
theorem FrameDecoder.attempt_feedAll_frame {fs : List (Byte × Time)} (hv : d.spec.Valid)
    (hlen : p.length + fs.length + 1 = d.frameLength) (hh : d.header <+: p ++ (fs.map Prod.fst ++ [b])) :
    (d.attempt p).completionsOf (fs ++ [(b, t)]) = [{ payload := p ++ fs.map Prod.fst ++ [b], completedAt := t }] ∧
    (d.attempt p).feedAll (fs ++ [(b, t)]) = { d with
      completed := some { payload := p ++ fs.map Prod.fst ++ [b], completedAt := t }, cursor := 0, partialBytes := [] } := by
  obtain ⟨hnone, hall⟩ := d.attempt_feedAll_accept (by omega) hh
  obtain ⟨harm, hfeed⟩ := d.attempt_feed_last (p := p ++ fs.map Prod.fst) (b := b) t hv
    (by rw [List.length_append, List.length_map]; exact hlen)
  rw [FrameDecoder.completionsOf_append, hnone, FrameDecoder.feedAll_append, hall,
    FrameDecoder.completionsOf_cons_of_completion t [] harm]
  exact ⟨rfl, hfeed⟩

end Attempt

/-- In the body the whole header stands at the front of `partial` (INV4). -/
theorem FrameDecoder.Inv.header_prefix_partialBytes {d : FrameDecoder} (hi : d.Inv) (hc : d.cursor = d.headerLength) :
    d.header <+: d.partialBytes := by
  have htake : d.partialBytes.take d.headerLength = d.header := by
    rw [← hc, hi.partial_eq_take, hc, List.take_length]
  exact htake ▸ List.take_prefix _ _

/-- Settles O24: the decoder is in the attempt its `partial` shows, whose header is complete. -/
theorem lockedAttemptCompletes : Obligations.LockedAttemptCompletes := by
  intro d fs b t hi hc hlen
  have hh : d.header <+: d.partialBytes := hi.header_prefix_partialBytes hc
  have hleft : d.partialBytes.length + fs.length + 1 = d.frameLength := by
    have hfill : d.partialBytes.length < d.frameLength := hi.fill_lt_frameLength
    have hrest : fs.length + 1 = d.frameLength - d.partialBytes.length := hlen
    omega
  obtain ⟨hnone, -⟩ := d.attempt_feedAll_accept (r := []) (Nat.lt_of_succ_le hleft.le)
    (hh.trans (List.prefix_append _ _))
  obtain ⟨hone, hall⟩ := d.attempt_feedAll_frame (b := b) t hi.valid hleft (hh.trans (List.prefix_append _ _))
  rw [hi.attempt_partialBytes] at hnone hone hall
  exact ⟨hnone, hone, hall⟩

/-! ### A clean frame -/

section Clean
variable {d : FrameDecoder} {fs : List (Byte × Time)} (hc : d.cursor = 0) (hp : d.partialBytes = [])
include hc hp

/-- Fewer than `L` bytes that agree with the header are all in `partial`. -/
theorem FrameDecoder.feedAll_unfinished {r : List Byte} (hlen : fs.length < d.frameLength)
    (hh : d.header <+: fs.map Prod.fst ++ r) :
    d.completionsOf fs = [] ∧ d.feedAll fs = d.attempt (fs.map Prod.fst) := by
  have hnil : d.attempt [] = d := FrameDecoder.attempt_nil_eq_self hc hp
  have h := d.attempt_feedAll_accept (p := []) (fs := fs) (r := r) (by rwa [List.length_nil, Nat.zero_add]) hh
  rwa [hnil] at h

/-- `L` bytes that begin with the header are a frame, and the decoder is between frames again. -/
theorem FrameDecoder.feedAll_frame (hv : d.spec.Valid) (hlen : fs.length = d.frameLength)
    (hh : d.header <+: fs.map Prod.fst) :
    ∃ t, (fs.map Prod.snd).getLast? = some t ∧
      d.completionsOf fs = [{ payload := fs.map Prod.fst, completedAt := t }] ∧
      d.feedAll fs = { d with completed := some { payload := fs.map Prod.fst, completedAt := t } } := by
  have hnil : d.attempt [] = d := FrameDecoder.attempt_nil_eq_self hc hp
  rcases List.eq_nil_or_concat' fs with rfl | ⟨init, ⟨b, t⟩, rfl⟩
  · exact absurd hlen (Nat.ne_of_lt hv.positive)
  · have hbytes : (init ++ [(b, t)]).map Prod.fst = [] ++ init.map Prod.fst ++ [b] := List.map_append
    have hidle : ∀ c, { d with completed := c, cursor := 0, partialBytes := [] } = { d with completed := c } := by
      intro c
      rw [← hc, ← hp]
    rw [hbytes] at hh
    rw [List.length_append, List.length_singleton] at hlen
    obtain ⟨hone, hall⟩ :=
      d.attempt_feedAll_frame (p := []) (fs := init) (b := b) t hv (by rw [List.length_nil]; omega) hh
    rw [hnil, ← hbytes] at hone hall
    exact ⟨t, by rw [List.map_append]; exact List.getLast?_concat, hone, hall.trans (hidle _)⟩

end Clean

theorem feedPresentations_append (fs gs : List (Byte × Time)) :
    feedPresentations (fs ++ gs) = feedPresentations fs ++ feedPresentations gs :=
  List.map_append

/-- Settles O21: the bytes with their times are a frame, and any fewer of them are unfinished. -/
theorem cleanFrameCompletes : Obligations.CleanFrameCompletes := by
  intro s d bs ts tL rest hd hv hc hp hbs hh hts htL hpend
  have hprefix : d.header <+: bs := hh ▸ List.take_prefix _ _
  have hfst : (bs.zip ts).map Prod.fst = bs := List.map_fst_zip (hbs.trans hts.symm).le
  have hsnd : (bs.zip ts).map Prod.snd = ts := List.map_snd_zip (hts.trans hbs.symm).le
  have hzip : (bs.zip ts).length = d.frameLength := by rw [List.length_zip, hbs, hts, min_self]
  have hne : bs.zip ts ≠ [] := List.ne_nil_of_length_pos (hzip ▸ hv.positive)
  refine ⟨?frame, fun k hk => ?unfinished⟩
  case frame =>
    obtain ⟨t, ht, -, hall⟩ := FrameDecoder.feedAll_frame hc hp hv hzip (by rwa [hfst])
    rw [hsnd, htL] at ht
    obtain rfl : tL = t := Option.some.inj ht
    rw [← hzip, run_feedPresentations hd hpend, hall, hfst, if_neg hne]
  case unfinished =>
    have hlen : (bs.take k).length = k := by rw [List.length_take, hbs, min_eq_left hk.le]
    have htake : ((bs.zip ts).take k).length = k := by rw [List.length_take, hzip, min_eq_left hk.le]
    have hbytes : ((bs.zip ts).take k).map Prod.fst = bs.take k := by rw [List.map_take, hfst]
    obtain ⟨-, hall⟩ := FrameDecoder.feedAll_unfinished (fs := (bs.zip ts).take k) (r := bs.drop k) hc hp
      (htake.trans_lt hk) (by rwa [hbytes, List.take_append_drop])
    have hsplit : s.pending =
        feedPresentations ((bs.zip ts).take k) ++ (feedPresentations ((bs.zip ts).drop k) ++ rest) := by
      rw [hpend, ← List.append_assoc, ← feedPresentations_append, List.take_append_drop]
    have hrun := run_feedPresentations hd hsplit
    have hempty : (bs.zip ts).take k = [] ↔ k = 0 := List.take_eq_nil_iff.trans (or_iff_left hne)
    rw [htake, hall, hbytes] at hrun
    simp only [hempty] at hrun
    exact ⟨d.attempt (bs.take k), hrun, rfl, rfl, hlen, congrArg (min · d.headerLength) hlen⟩

/-! ### A header of length zero -/

/-- Induction over a list cut into pieces of `L` elements. -/
theorem list_pieces_induction {α : Type} {L : Nat} (hL : 0 < L) {P : List α → Prop}
    (short : ∀ l, l.length < L → P l) (piece : ∀ l m, l.length = L → P m → P (l ++ m)) (l : List α) : P l := by
  induction hn : l.length using Nat.strong_induction_on generalizing l with
  | _ n ih =>
    rcases Nat.lt_or_ge l.length L with hlt | hge
    · exact short l hlt
    · rw [← List.take_append_drop L l]
      refine piece _ _ (by rw [List.length_take, min_eq_left hge]) (ih (l.drop L).length ?_ _ rfl)
      rw [List.length_drop]
      omega

/-- The consecutive whole pieces of `L` bytes of a stream (R108). -/
def wholePieces (L : Nat) (bs : List Byte) : List (List Byte) :=
  (List.range (bs.length / L)).map fun q => (bs.drop (q * L)).take L

/-- What is left of a stream after its last whole piece. -/
def afterPieces (L : Nat) (bs : List Byte) : List Byte := bs.drop (bs.length / L * L)

section Pieces
variable {L : Nat} {bs : List Byte}

theorem pieces_of_short (h : bs.length < L) : wholePieces L bs = [] ∧ afterPieces L bs = bs := by
  simp [wholePieces, afterPieces, Nat.div_eq_of_lt h]

theorem pieces_append {p : List Byte} (hL : 0 < L) (hp : p.length = L) :
    wholePieces L (p ++ bs) = p :: wholePieces L bs ∧ afterPieces L (p ++ bs) = afterPieces L bs := by
  have hdiv : (p ++ bs).length / L = bs.length / L + 1 := by
    rw [List.length_append, hp, Nat.add_div_left _ hL]
  have hdrop : ∀ q, (p ++ bs).drop ((q + 1) * L) = bs.drop (q * L) := fun q => by
    rw [Nat.succ_mul, Nat.add_comm, ← List.drop_drop, ← hp, List.drop_left]
  refine ⟨?_, by rw [afterPieces, hdiv, hdrop, afterPieces]⟩
  rw [wholePieces, hdiv, List.range_succ_eq_map, List.map_cons, List.map_map, Nat.zero_mul, List.drop_zero, ← hp,
    List.take_left, hp, wholePieces]
  congr 1
  exact List.map_congr_left fun q _ => congrArg (List.take L) (hdrop q)

end Pieces

/-- With nothing to match every `L` bytes are a frame. -/
theorem FrameDecoder.feedAll_of_header_nil {sp : FrameSpec} (hv : sp.Valid) (hn : sp.header = []) (fs : List (Byte × Time))
    {d : FrameDecoder} (hd : d.spec = sp) (hc : d.cursor = 0) (hp : d.partialBytes = []) :
    (d.feedAll fs).cursor = 0 ∧ (d.feedAll fs).partialBytes = afterPieces sp.frameLength (fs.map Prod.fst) ∧
      (d.completionsOf fs).map Completion.payload = wholePieces sp.frameLength (fs.map Prod.fst) := by
  have hprefix : ∀ bs, sp.header <+: bs := fun bs => by rw [hn]; exact List.nil_prefix
  induction fs using list_pieces_induction hv.positive generalizing d with
  | short fs hlen =>
    subst hd
    obtain ⟨hnone, hall⟩ := FrameDecoder.feedAll_unfinished (r := []) hc hp hlen (hprefix _)
    obtain ⟨hpieces, hafter⟩ := pieces_of_short (bs := fs.map Prod.fst) (List.length_map (as := fs) Prod.fst ▸ hlen)
    rw [hnone, hall, hpieces, hafter]
    exact ⟨by rw [FrameDecoder.attempt, FrameDecoder.headerLength, hn]; exact Nat.min_zero _, rfl, rfl⟩
  | piece fs gs hlen ih =>
    subst hd
    obtain ⟨t, -, hone, hall⟩ := FrameDecoder.feedAll_frame hc hp hv hlen (hprefix _)
    obtain ⟨hpieces, hafter⟩ := pieces_append (p := fs.map Prod.fst) (bs := gs.map Prod.fst) hv.positive
      ((List.length_map _).trans hlen)
    rw [FrameDecoder.feedAll_append, FrameDecoder.completionsOf_append, hone, hall, List.map_append, List.map_append,
      hpieces, hafter]
    obtain ⟨hcursor, hpartial, hpayloads⟩ :=
      ih (d := { d with completed := some { payload := fs.map Prod.fst, completedAt := t } }) rfl hc hp
    exact ⟨hcursor, hpartial, congrArg (fs.map Prod.fst :: ·) hpayloads⟩

/-- Settles O19: from the Fresh state nothing is accepted yet. -/
theorem zeroLengthHeaderCutsStream : Obligations.ZeroLengthHeaderCutsStream := by
  intro sp fs hv hn
  have h := FrameDecoder.feedAll_of_header_nil hv hn fs (FrameDecoder.fresh_spec sp) rfl rfl
  rwa [afterPieces, wholePieces, List.length_map] at h

/-! ### Spacing -/

/-- A stored payload is a frame (INV5). -/
theorem FrameDecoder.Inv.completed_payload {d : FrameDecoder} {c : Completion} (hi : d.Inv) (hc : d.completed = some c) :
    c.payload.length = d.frameLength ∧ c.payload.take d.headerLength = d.header := by
  obtain ⟨hlen, hbytes⟩ := hi.inv5 c hc
  have hprefix : d.header <+: c.payload :=
    List.prefix_iff_getElem?.2 fun i hlt => (hbytes i hlt).trans (List.getElem?_eq_getElem hlt)
  exact ⟨hlen, (List.prefix_iff_eq_take.1 hprefix).symm⟩

/-- Every payload is stored at its completion, where the invariant holds. -/
theorem FrameDecoder.Inv.completionsOf_payload {d : FrameDecoder} {fs : List (Byte × Time)} (hi : d.Inv) :
    ∀ c ∈ d.completionsOf fs, c.payload.length = d.frameLength ∧ c.payload.take d.headerLength = d.header := by
  induction fs generalizing d with
  | nil => exact fun c hc => absurd hc List.not_mem_nil
  | cons f fs ih =>
    have hnext := hi.feed f.1 f.2
    have hrest := ih hnext
    by_cases harm : d.feedArm f.1 = .completion
    · have hfirst := hnext.completed_payload (FrameDecoder.feed_completed_of_completion f.2 harm)
      rw [FrameDecoder.completionsOf_cons_of_completion f.2 fs harm, List.forall_mem_cons]
      simp only [FrameDecoder.frameLength, FrameDecoder.headerLength, FrameDecoder.header, FrameDecoder.feed_spec]
        at hfirst hrest
      exact ⟨hfirst, hrest⟩
    · rw [FrameDecoder.completionsOf_cons_of_ne f.2 fs harm]
      simpa only [FrameDecoder.frameLength, FrameDecoder.headerLength, FrameDecoder.header, FrameDecoder.feed_spec]
        using hrest

/-- The payloads `ps` stand in the stream in this order, with gaps between them (R115). -/
def StandIn (ps : List (List Byte)) (bs : List Byte) : Prop :=
  ∃ gaps tail, gaps.length = ps.length ∧ bs = interleave gaps ps ++ tail

theorem standIn_nil (bs : List Byte) : StandIn [] bs := ⟨[], bs, rfl, rfl⟩

/-- A payload at the front of the stream. -/
theorem StandIn.cons {ps : List (List Byte)} {bs : List Byte} (h : StandIn ps bs) (p : List Byte) :
    StandIn (p :: ps) (p ++ bs) := by
  obtain ⟨gaps, tail, hlen, rfl⟩ := h
  exact ⟨[] :: gaps, tail, congrArg (· + 1) hlen, (List.append_assoc _ _ _).symm⟩

/-- Bytes in front of the stream widen the first gap. -/
theorem StandIn.append_left {ps : List (List Byte)} {bs : List Byte} (h : StandIn ps bs) (front : List Byte) :
    StandIn ps (front ++ bs) := by
  obtain ⟨gaps, tail, hlen, rfl⟩ := h
  match gaps, ps, hlen with
  | [], [], _ => exact standIn_nil _
  | g :: gaps, p :: ps, hlen =>
    exact ⟨(front ++ g) :: gaps, tail, hlen, by simp [interleave]⟩

theorem mul_le_length_interleave {L : Nat} {gaps ps : List (List Byte)} (hlen : gaps.length = ps.length)
    (hL : ∀ p ∈ ps, p.length = L) : ps.length * L ≤ (interleave gaps ps).length := by
  induction ps generalizing gaps with
  | nil => exact (Nat.zero_mul L).trans_le (Nat.zero_le _)
  | cons p ps ih =>
    obtain ⟨hp, hps⟩ := List.forall_mem_cons.1 hL
    match gaps, hlen with
    | g :: gaps, hlen =>
      have hrest := ih (Nat.succ.inj hlen) hps
      rw [interleave, List.length_append, List.length_append, hp, List.length_cons, Nat.succ_mul]
      omega

/-- Since the payloads share no byte, `n` of them take `n * L` bytes of the stream. -/
theorem StandIn.mul_le_length {ps : List (List Byte)} {bs : List Byte} {L : Nat} (h : StandIn ps bs)
    (hL : ∀ p ∈ ps, p.length = L) : ps.length * L ≤ bs.length := by
  obtain ⟨gaps, tail, hlen, rfl⟩ := h
  rw [List.length_append]
  exact (mul_le_length_interleave hlen hL).trans (Nat.le_add_right _ _)

/-- The bytes accepted so far, followed by the bytes fed, hold the completed payloads in order: an accepted byte moves from
the one to the other, a mismatch leaves a gap, and a completion takes the accepted bytes and its own. -/
theorem FrameDecoder.completionsOf_standIn (d : FrameDecoder) (fs : List (Byte × Time)) :
    StandIn ((d.completionsOf fs).map Completion.payload) (d.partialBytes ++ fs.map Prod.fst) := by
  induction fs generalizing d with
  | nil => exact standIn_nil _
  | cons f fs ih =>
    obtain ⟨b, t⟩ := f
    have hrest := ih (d.feed b t)
    rw [List.map_cons, List.append_cons]
    cases harm : d.feedArm b with
    | headerMatch =>
      rw [FrameDecoder.completionsOf_cons_of_ne t fs (by rw [harm]; decide)]
      rwa [FrameDecoder.feed_partialBytes_of_accept t (.inl harm)] at hrest
    | headerMismatch =>
      rw [FrameDecoder.completionsOf_cons_of_ne t fs (by rw [harm]; decide)]
      rw [FrameDecoder.feed_partialBytes_of_end t (.inl harm)] at hrest
      exact hrest.append_left (d.partialBytes ++ [b])
    | bodyByte =>
      rw [FrameDecoder.completionsOf_cons_of_ne t fs (by rw [harm]; decide)]
      rwa [FrameDecoder.feed_partialBytes_of_accept t (.inr harm)] at hrest
    | completion =>
      rw [FrameDecoder.completionsOf_cons_of_completion t fs harm]
      rw [FrameDecoder.feed_partialBytes_of_end t (.inr harm)] at hrest
      exact hrest.cons (d.partialBytes ++ [b])

/-- Settles O25: the bytes fed hold the payloads, each of which is a frame. -/
theorem payloadsAreDisjointStretchesOfTheStream : Obligations.PayloadsAreDisjointStretchesOfTheStream := by
  intro sp fs hv
  have hframes := (FrameDecoder.fresh_inv hv).completionsOf_payload (fs := fs)
  have hstand := (FrameDecoder.fresh sp).completionsOf_standIn fs
  refine ⟨hframes, ?gaps, (Nat.le_div_iff_mul_le hv.positive).2 ?count⟩
  case gaps =>
    obtain ⟨gaps, tail, hlen, hbytes⟩ := hstand
    exact ⟨gaps, tail, hlen.trans (List.length_map _), hbytes⟩
  case count =>
    have hcount := hstand.mul_le_length (List.forall_mem_map.2 fun c hc => (hframes c hc).1)
    rwa [List.length_map, FrameDecoder.fresh_partialBytes, List.nil_append, List.length_map] at hcount

end Sys2Proof.Machine
end

section
/-! PROOFS. The accessors (spec/42_decode.md R120 to R129): each answers through its equation on the decoder, first the bounds
check that the four payload accessors share, then the bytes the accessor reads. -/

namespace Sys2Proof.Machine

/-! ### The bounds check -/

/-- Settles O28: `require` comes first in each of the four accessors, so its error is the answer. -/
theorem absentOrUndersizedPayloadIsOutOfRange : Obligations.AbsentOrUndersizedPayloadIsOutOfRange := by
  intro s d i need hd hmem h
  simp only [List.mem_cons, Prod.mk.injEq, List.not_mem_nil, or_false] at hmem
  rcases hmem with ⟨rfl, rfl⟩ | ⟨rfl, rfl⟩ | ⟨rfl, rfl⟩ | ⟨rfl, rfl⟩
  · rw [exec_mode_eq hd, FrameDecoder.mode_outOfRange s.tables h]; rfl
  · rw [exec_decimalPlaces_eq hd, FrameDecoder.decimalPlaces_outOfRange h]; rfl
  · rw [exec_units_eq hd, FrameDecoder.units_outOfRange s.tables h]; rfl
  · rw [exec_value_eq hd, FrameDecoder.value_outOfRange h]; rfl

/-! ### MODE and DECIMAL_PLACES -/

/-- The header is the front of every completed frame (INV5), so an offset inside it reads a constant. -/
theorem FrameDecoder.Inv.header_getElem?_of_payload {d : FrameDecoder} {c : Completion} {k : Nat} {b : Byte} (hi : d.Inv)
    (hc : d.completed = some c) (hk : k < d.headerLength) (hb : c.payload[k]? = some b) : d.header[k]? = some b := by
  obtain ⟨-, hheader⟩ := hi.inv5 c hc
  rw [← hheader k hk, hb]

/-- Settles O29: the label is the look-up's, with "Unknown" for a miss. -/
theorem modeAnswersTableLabel : Obligations.ModeAnswersTableLabel := by
  refine ⟨fun p hop => ?decoded, fun s d hd => ⟨absentOrUndersizedPayloadIsOutOfRange s d .mode 5 hd (by simp),
    fun c code hc hl hb => ⟨fun m hm => ?known, fun hm => ?unknown, fun hi hn => ?header⟩⟩⟩
  case decoded =>
    obtain ⟨-, -, -, hmode, -⟩ := opCodeSelectsOperation p
    exact hmode hop
  case known => rw [exec_mode_eq hd, FrameDecoder.mode_ok s.tables hc hl hb, hm]; rfl
  case unknown => rw [exec_mode_eq hd, FrameDecoder.mode_ok s.tables hc hl hb, hm]; rfl
  case header => exact hi.header_getElem?_of_payload hc hn hb

/-- Settles O30: after the bounds check the byte is answered as it is. -/
theorem decimalPlacesAnswersByteNine : Obligations.DecimalPlacesAnswersByteNine := by
  refine ⟨fun p hop => ?decoded, fun s d hd => ⟨absentOrUndersizedPayloadIsOutOfRange s d .decimalPlaces 10 hd (by simp),
    fun c dp hc hl hb => ?answer⟩⟩
  case decoded =>
    obtain ⟨-, -, -, -, hplaces, -⟩ := opCodeSelectsOperation p
    exact hplaces hop
  case answer => rw [exec_decimalPlaces_eq hd, FrameDecoder.decimalPlaces_ok hc hl hb]; rfl

/-! ### VALUE -/

/-- Settles O31: one lemma of `value` for each way through its checks; the sign is bit 0 of the flag byte, its parity. -/
theorem valueAnswersSignedMagnitude : Obligations.ValueAnswersSignedMagnitude := by
  refine ⟨fun p hop => ?decoded, fun sm dp => rfl, fun s d hd =>
    ⟨absentOrUndersizedPayloadIsOutOfRange s d .value 13 hd (by simp), ?_⟩⟩
  case decoded =>
    obtain ⟨-, -, -, -, -, hvalue, -⟩ := opCodeSelectsOperation p
    exact hvalue hop
  intro c p0 p1 p2 p3 p4 d0 d1 d2 d3 dp unit mult sign rest hc hl hp
  have h0 : c.payload[offDigit0]? = some d0 := congrArg (·[offDigit0]?) hp
  have h3 : c.payload[offDigit3]? = some d3 := congrArg (·[offDigit3]?) hp
  have hdp : c.payload[offDecimalPlaces]? = some dp := congrArg (·[offDecimalPlaces]?) hp
  have hdigits (hB : d0 ≠ 0x0B) (hF : d0 ≠ 0x0F) (hbl : d3 ≠ 0x0F) :=
    FrameDecoder.value_digits hc hl h0 (not_or.2 ⟨hB, hF⟩) (congrArg (·[offDigit1]?) hp) (congrArg (·[offDigit2]?) hp) h3
      hbl hdp (congrArg (·[offSign]?) hp)
  refine ⟨fun hov => ?overload, fun hB hF hbl => ?blank, fun hB hF hbl heven => ?positive, fun hB hF hbl hodd => ?negative⟩
  case overload => rw [exec_value_eq hd, FrameDecoder.value_overload hc hl h0 hov]; rfl
  case blank =>
    rw [exec_value_eq hd, FrameDecoder.value_blank hc hl h0 (not_or.2 ⟨hB, hF⟩) (hbl ▸ h3) hdp]; rfl
  case positive =>
    have hbit : ¬ sign.toNat.testBit 0 = true := by simp [heven]
    rw [exec_value_eq hd, hdigits hB hF hbl, if_neg hbit, digitSum_cast]; rfl
  case negative =>
    have hbit : sign.toNat.testBit 0 = true := by simp [hodd]
    rw [exec_value_eq hd, hdigits hB hF hbl, if_pos hbit, digitSum_cast]; rfl

/-- What the port carries is exact: multiplying the denoted rational by its power of ten gives the integer back. -/
theorem scaledValue_mul_pow (sm : Int) (dp : Byte) : scaledValue sm dp * (10 : Rat) ^ dp.toNat = (sm : Rat) :=
  div_mul_cancel₀ _ (by positivity)

theorem scaledValue_eq_iff (sm₁ sm₂ : Int) (dp₁ dp₂ : Byte) :
    scaledValue sm₁ dp₁ = scaledValue sm₂ dp₂ ↔ sm₁ * 10 ^ dp₂.toNat = sm₂ * 10 ^ dp₁.toNat := by
  rw [scaledValue, scaledValue, div_eq_div_iff (by positivity) (by positivity)]
  exact_mod_cast Iff.rfl

/-- A decoder without a header whose last frame has all four digit bytes at 255, and the sign flag clear. -/
def largestMagnitudeDecoder : FrameDecoder :=
  { spec := { frameLength := 13, header := [] }
    cursor := 0
    partialBytes := []
    completed := some { payload := [0, 0, 0, 0, 0, 255, 255, 255, 255, 0, 0, 0, 0], completedAt := 0 } }

/-- The bound of `digitSum_le` is reached. -/
theorem largestMagnitudeDecoder_value : largestMagnitudeDecoder.value = .ok (.value 283305 0) := by
  have hvalue := FrameDecoder.value_digits (d := largestMagnitudeDecoder) (d0 := 255) (d1 := 255) (d2 := 255) (d3 := 255)
    (dp := 0) (sign := 0) rfl le_rfl rfl (by decide) rfl rfl rfl (by decide) rfl rfl
  rw [hvalue]
  rfl

/-- Settles O32: the range of VALUE's answers and the decoder that reaches it; the rest is about the denoted rational. -/
theorem valueArithmeticIsExact : Obligations.ValueArithmeticIsExact := by
  refine ⟨fun s t sm dp h hr => ?exact, ?reached, scaledValue_eq_iff⟩
  case exact =>
    obtain ⟨d, -, hresp⟩ := exec_readOnly_response rfl h
    obtain ⟨sm', dp', heq, hlo, hhi⟩ := FrameDecoder.value_ok_range (readOnlyAnswer_value (hresp.symm.trans hr))
    cases heq
    exact ⟨hlo, hhi, valSmPort_toInt hlo hhi, scaledValue_mul_pow sm dp⟩
  case reached =>
    refine ⟨{ State.reset with decoder := some largestMagnitudeDecoder }, _, 0, exec_value_eq rfl, ?_⟩
    rw [largestMagnitudeDecoder_value]
    rfl

/-! ### UNITS -/

section Units
variable {s : State} {d : FrameDecoder} {c : Completion} {uc mc : Byte} (hd : s.decoder = some d)
  (hc : d.completed = some c) (hl : 12 ≤ d.frameLength) (huc : c.payload[offUnit]? = some uc)
  (hmc : c.payload[offMult]? = some mc)
include hd hc hl huc hmc

theorem exec_units_of_lookups {u : UnitLabel} {m : Multiplier} (hu : tableLookup s.tables.unit uc = some u)
    (hm : tableLookup s.tables.mult mc = some m) :
    exec .units s = .next { s with response := .ok (.units m.siPrefix u) } := by
  rw [exec_units_eq hd, FrameDecoder.units_ok s.tables hc hl huc hmc, hu, hm]
  rfl

/-- One error for a miss of either table or of both. -/
theorem exec_units_of_lookup_none (h : tableLookup s.tables.unit uc = none ∨ tableLookup s.tables.mult mc = none) :
    exec .units s = .next { s with response := .err { kind := .unknownUnits, info := none } } := by
  rw [exec_units_eq hd, FrameDecoder.units_ok s.tables hc hl huc hmc]
  rcases h with hu | hm
  · rw [hu]; rfl
  · rw [hm]; cases tableLookup s.tables.unit uc <;> rfl

end Units

/-- Settles O33: a hit of both tables and a miss of one have a lemma each. -/
theorem unitsAnswersPrefixAndLabel : Obligations.UnitsAnswersPrefixAndLabel := by
  refine ⟨fun p hop => ?decoded, fun p u => rfl, fun s d hd =>
    ⟨absentOrUndersizedPayloadIsOutOfRange s d .units 12 hd (by simp), fun c uc mc hc hl huc hmc =>
      ⟨fun u m => exec_units_of_lookups hd hc hl huc hmc, exec_units_of_lookup_none hd hc hl huc hmc⟩⟩⟩
  case decoded =>
    obtain ⟨-, -, -, -, -, -, hunits, -⟩ := opCodeSelectsOperation p
    exact hunits hop

/-- Settles O50: the answer takes only `siPrefix` from the multiplier entry, and the table has two entries with milli. -/
theorem twoMilliCodesAnswerAlike : Obligations.TwoMilliCodesAnswerAlike := by
  rintro T ⟨-, m₁, m₂, e₁, e₂, hne, hm₁, hm₂, hp₁, hp₂⟩
  refine ⟨m₁, m₂, hne, ?_⟩
  rintro s s' d d' c c' uc u rfl hT hd hd' hc hc' hl hl' huc huc' hu hmc hmc'
  rw [← hT] at hm₂
  exact ⟨hp₁ ▸ exec_units_of_lookups hd hc hl huc hmc hu hm₁,
    hp₂ ▸ exec_units_of_lookups hd' hc' hl' huc' hmc' (hT ▸ hu) hm₂⟩

/-! ### RAW_PAYLOAD and HAS_NEW_PAYLOAD_SINCE -/

theorem FrameDecoder.lastPayload_of_none {d : FrameDecoder} (h : d.completed = none) : d.lastPayload = [] := by
  rw [FrameDecoder.lastPayload, h]

/-- Settles O34: the operation answers `last_payload`, which is empty before the first completion (R24). -/
theorem rawPayloadAnswersWholeFrame : Obligations.RawPayloadAnswersWholeFrame := by
  refine ⟨fun p hop => ?decoded, fun s d hd => ⟨fun c hc => ?present, fun hc => ?absent⟩⟩
  case decoded =>
    obtain ⟨-, -, -, -, -, -, -, hraw, -⟩ := opCodeSelectsOperation p
    exact hraw hop
  case present => rw [exec_rawPayload_eq hd, FrameDecoder.lastPayload_of_some hc]
  case absent => rw [exec_rawPayload_eq hd, FrameDecoder.lastPayload_of_none hc]

/-- Settles O35: the comparison is with the stored time, and without one the answer is false. -/
theorem hasNewPayloadSinceComparesTime : Obligations.HasNewPayloadSinceComparesTime := by
  refine ⟨fun p hop => ?decoded, fun s d ts hd => ⟨fun c hc => ?present, fun hc => ?absent⟩⟩
  case decoded =>
    obtain ⟨-, -, -, -, -, -, -, -, hnew, -⟩ := opCodeSelectsOperation p
    exact hnew hop
  all_goals
    rw [exec_hasNewPayloadSince_eq hd, FrameDecoder.hasNewPayloadSince_eq, FrameDecoder.lastCompletedAt, hc]
    rfl

end Sys2Proof.Machine
end

section
/-! PROOFS. What the accessors' answers depend on (spec/42_decode.md R121, R130), and the reading made of them (R129). -/

namespace Sys2Proof.Machine

/-! ### Noninterference -/

/-- Two states on which a read-only operation has one answer: it writes that answer in both and nothing else (R33). -/
theorem exec_readOnly_same_response {i : Instr} {s s' : State} {d d' : FrameDecoder} (hi : i.readOnly = true)
    (hd : s.decoder = some d) (hd' : s'.decoder = some d')
    (h : readOnlyAnswer i d s.tables = readOnlyAnswer i d' s'.tables) :
    ∃ r : Response, exec i s = .next { s with response := r } ∧ exec i s' = .next { s' with response := r } :=
  ⟨readOnlyAnswer i d s.tables, exec_readOnly hd hi, h ▸ exec_readOnly hd' hi⟩

/-- Settles O37: the answers of decoders with the same reading are equal, and the poll reads the stored time only. -/
theorem accessorsSeeOnlyCompletedPayload : Obligations.AccessorsSeeOnlyCompletedPayload := by
  refine fun s s' d d' hd hd' => ⟨fun hsame hT i hmem => ?accessor, fun htime ts => ?hasNew⟩
  case accessor =>
    obtain ⟨hmode, hplaces, hvalue, hunits, hraw⟩ := hsame.answers s'.tables
    have alike {i : Instr} (hi : i.readOnly = true)
        (h : readOnlyAnswer i d s'.tables = readOnlyAnswer i d' s'.tables) :=
      exec_readOnly_same_response hi hd hd' (hT ▸ h)
    simp only [List.mem_cons, List.not_mem_nil, or_false] at hmem
    rcases hmem with rfl | rfl | rfl | rfl | rfl
    · exact alike rfl (congrArg Response.ofExcept hmode)
    · exact alike rfl (congrArg Response.ofExcept hplaces)
    · exact alike rfl (congrArg Response.ofExcept hvalue)
    · exact alike rfl (congrArg Response.ofExcept hunits)
    · exact alike rfl (congrArg Response.ofExcept hraw)
  case hasNew =>
    have hnew : d.hasNewPayloadSince ts = d'.hasNewPayloadSince ts := by
      rw [FrameDecoder.hasNewPayloadSince_eq, FrameDecoder.hasNewPayloadSince_eq, htime]
    exact exec_readOnly_same_response rfl hd hd' (congrArg Response.ofExcept hnew)

/-- UNITS takes from the multiplier table whether a code is there, and its `siPrefix`; the scale factor is not read (R66). -/
theorem FrameDecoder.units_congr_siPrefix (d : FrameDecoder) {T T' : Tables} (hunit : T.unit = T'.unit)
    (hmult : ∀ c, (tableLookup T.mult c).map Multiplier.siPrefix = (tableLookup T'.mult c).map Multiplier.siPrefix) :
    d.units T = d.units T' := by
  unfold FrameDecoder.units
  refine bind_congr fun _ => bind_congr fun uc => bind_congr fun mc => ?_
  have hprefix := hmult mc
  rw [hunit]
  cases tableLookup T'.unit uc with
  | none => rfl
  | some u =>
    cases hm : tableLookup T.mult mc with
    | none =>
      rw [hm, Option.map_none, eq_comm, Option.map_eq_none_iff] at hprefix
      rw [hprefix]
    | some m =>
      rw [hm] at hprefix
      obtain ⟨m', hm', hp⟩ := Option.map_eq_some_iff.1 hprefix.symm
      simp only [hm', hp]

/-- Settles O38: VALUE does not read offset 11, and UNITS reads of a multiplier its `siPrefix` only. -/
theorem multiplierDoesNotScaleValue : Obligations.MultiplierDoesNotScaleValue := by
  refine ⟨fun s s' d d' c c' hd hd' hc hc' hl hb => ?value, fun s s' d hd hd' hunit hmult => ?units⟩
  case value =>
    refine exec_readOnly_same_response rfl hd hd' (congrArg Response.ofExcept (FrameDecoder.value_congr ?_ hl ?_))
    · rw [FrameDecoder.havePayload, FrameDecoder.havePayload, hc, hc']; rfl
    · rw [FrameDecoder.lastPayload_of_some hc, FrameDecoder.lastPayload_of_some hc']
      exact hb
  case units =>
    exact exec_readOnly_same_response rfl hd hd' (congrArg Response.ofExcept (d.units_congr_siPrefix hunit hmult))

/-! ### The reading -/

theorem FrameDecoder.reading_rawMagnitude_of_value {d : FrameDecoder} {sm : Int} {dp : Byte} (T : Tables)
    (h : d.value = .ok (.value sm dp)) : (d.reading T).rawMagnitude = some sm.natAbs := by
  rw [FrameDecoder.reading, h]

/-- The sign-flag bit of R129 is the parity of `payload[12]`. -/
theorem FrameDecoder.reading_negative_of_payload {d : FrameDecoder} {c : Completion} {sign : Byte} (T : Tables)
    (hc : d.completed = some c) (hs : c.payload[offSign]? = some sign) :
    (d.reading T).negative = some (decide (sign.toNat % 2 = 1)) := by
  rw [FrameDecoder.reading, FrameDecoder.readByte_payload, FrameDecoder.lastPayload_of_some hc, hs, Option.map_some,
    BitVec.getLsbD, Nat.testBit_zero]

theorem FrameDecoder.reading_of_none {d : FrameDecoder} (T : Tables) (hc : d.completed = none) :
    (d.reading T).rawMagnitude = none ∧ (d.reading T).negative = none := by
  rw [FrameDecoder.reading, FrameDecoder.value_outOfRange (.inl hc), FrameDecoder.readByte_payload,
    FrameDecoder.lastPayload_of_none hc]
  exact ⟨rfl, rfl⟩

/-- Settles O39: the four parts are the operations' equations, and the magnitude and the sign have a lemma each. -/
theorem readingIsTheAccessorsAnswers : Obligations.ReadingIsTheAccessorsAnswers := by
  refine fun s d hd => ⟨exec_mode_eq hd, exec_decimalPlaces_eq hd, exec_value_eq hd, exec_units_eq hd,
    fun sm dp h => FrameDecoder.reading_rawMagnitude_of_value s.tables (Response.ofExcept_ok h),
    fun c sign => FrameDecoder.reading_negative_of_payload s.tables, fun sm dp m neg h hm hn => ?sign,
    FrameDecoder.reading_of_none s.tables⟩
  case sign =>
    have hvalue : d.value = .ok (.value sm dp) := Response.ofExcept_ok h
    obtain rfl : sm.natAbs = m :=
      Option.some.inj ((FrameDecoder.reading_rawMagnitude_of_value s.tables hvalue).symm.trans hm)
    exact FrameDecoder.value_sign hvalue hn

end Sys2Proof.Machine
end

section
/-! PROOFS. The errors of the operations (spec/60_exceptions.md R140 to R149): which an operation can answer with, and what it
leaves of the state. -/

namespace Sys2Proof.Machine

/-- An error is NEW's ConfigError or a read-only operation's answer, which is all that operation writes. -/
theorem exec_error_cases {i : Instr} {s t : State} {e : Err} (h : exec i s = .next t) (hr : t.response = .err e) :
    (∃ l hd, i = .new l hd ∧ e = errConfig) ∨
    ∃ d, s.decoder = some d ∧ readOnlyAnswer i d s.tables = .err e ∧ t = { s with response := .err e } := by
  rcases exec_next_cases h with ⟨l, hd, -, -, rfl⟩ | ⟨l, hd, hnew, -, rfl⟩ |
    ⟨d, hd, ⟨b, now, -, rfl⟩ | ⟨-, rfl⟩ | ⟨-, rfl⟩⟩
  · cases hr
  · exact .inl ⟨l, hd, hnew, (Response.err.inj hr).symm⟩
  · cases hr
  · cases hr
  · have hanswer : readOnlyAnswer i d s.tables = .err e := hr
    exact .inr ⟨d, hd, hanswer, by rw [hanswer]⟩

/-- Settles O47: NEW has one error, and `readOnlyAnswer_error` lists those of the other operations. -/
theorem errorKindsPerOperation : Obligations.ErrorKindsPerOperation := by
  intro i s t e h hr
  rcases exec_error_cases h hr with ⟨l, hd, rfl, rfl⟩ | ⟨d, -, hanswer, -⟩
  · exact ⟨rfl, by simp [errConfig]⟩
  · exact readOnlyAnswer_error hanswer

/-- Settles O48: an error of an operation other than NEW is a read-only operation's. -/
theorem errorsChangeNoState : Obligations.ErrorsChangeNoState := by
  intro i s t e h hr hi
  rcases exec_error_cases h hr with ⟨l, hd, hnew, -⟩ | ⟨d, -, -, ht⟩
  · exact absurd hnew (hi l hd)
  · exact ht

end Sys2Proof.Machine
end

section
/-! PROOFS. The Fresh state and the framing hazard (spec/70_reset_and_hazards.md R171, R176, R179): both follow from what the
operations are already known to do, on a decoder without a payload and on one between frames. -/

namespace Sys2Proof.Machine

/-- Settles O23: the mismatch drops its byte with the attempt, and from the header search the rest is noise (O22). -/
theorem falseStartLosesNextFrame : Obligations.FalseStartLosesNextFrame := by
  intro d h0 t fs hi _ hlt hh hne hfs
  have harm : d.feedArm h0 = .headerMismatch := FrameDecoder.feedArm_headerMismatch_iff.2 ⟨hlt, hne⟩
  have hfeed : d.feed h0 t = d.dropAttempt := FrameDecoder.feed_of_headerMismatch t harm
  have hinv : d.dropAttempt.Inv := hfeed ▸ hi.feed h0 t
  rw [FrameDecoder.feedAll_cons, FrameDecoder.completionsOf_cons_of_ne t fs (by rw [harm]; decide), hfeed]
  exact noiseWithoutHeaderStartIsHarmless d.dropAttempt fs h0 hinv d.dropAttempt_cursor hh hfs

/-- Settles O36: a Fresh decoder has no payload, so the four accessors fail the bounds check (O28), and RAW_PAYLOAD and
HAS_NEW_PAYLOAD_SINCE answer as before the first completion (O34, O35). -/
theorem freshStateAnswers : Obligations.FreshStateAnswers := by
  intro s sp ts hd
  have hnone : (FrameDecoder.fresh sp).completed = none := FrameDecoder.fresh_completed sp
  obtain ⟨-, hraw⟩ := rawPayloadAnswersWholeFrame
  obtain ⟨-, hnew⟩ := hasNewPayloadSinceComparesTime
  obtain ⟨-, hempty⟩ := hraw s (.fresh sp) hd
  obtain ⟨-, hfalse⟩ := hnew s (.fresh sp) ts hd
  refine ⟨fun i hmem => ?accessor, hempty hnone, hfalse hnone, rfl⟩
  case accessor =>
    have outOfRange (need : Nat) := absentOrUndersizedPayloadIsOutOfRange s (.fresh sp) i need hd
    simp only [List.mem_cons, List.not_mem_nil, or_false] at hmem
    rcases hmem with rfl | rfl | rfl | rfl
    · exact outOfRange 5 (by simp) (.inl hnone)
    · exact outOfRange 10 (by simp) (.inl hnone)
    · exact outOfRange 13 (by simp) (.inl hnone)
    · exact outOfRange 12 (by simp) (.inl hnone)

end Sys2Proof.Machine
end
